-- ==== Sys2Proof/Word.lean ====
section
/-! DEFINITION. The one word type of this hardware: a byte (R7, R40). Register values, addresses and the
program counter are natural numbers without an upper bound (R21, R25), so they have no word type. -/

namespace Sys2Proof

/-- An 8-bit memory cell, an opcode byte, an operand byte or the flag register (R6, R7). -/
abbrev Byte := BitVec 8

/-- `zext_8(v)`: the byte read as a natural number, value unchanged (R7). -/
abbrev zext8 (v : Byte) : Nat := v.toNat

end Sys2Proof
end

