-- ==== Sys2Proof/Config.lean ====
section
/-! DEFINITION. What is fixed for one machine: the sizes of R6 and the TYPE of the opcode value table, which R63
asks a model to take as a configuration argument `opcodeOf : Mnemonic -> Byte`. The table's default values are
`opcodeOf` in Decode.lean. The spec leaves no value free, so there is no opaque constant here. -/

namespace Sys2Proof

/-- The eight instructions, by the spec's short names (R11, R63). -/
inductive Mnemonic where
  | hlt | ldi | prn | mul | cmp | jmp | jeq | jne
deriving DecidableEq, Repr

/-- The closed set of R66: "Must support exactly these opcodes". -/
def Mnemonic.all : List Mnemonic := [.hlt, .ldi, .prn, .mul, .cmp, .jmp, .jeq, .jne]

/-- An assignment of opcode bytes to the instructions (R63: "A model must take this table as a configuration
argument"). -/
abbrev OpcodeTable := Mnemonic → Byte

/-- What R63 lets a model rely on from the source alone: HALT is 0x01 and the eight values are distinct. -/
def OpcodeTable.Legal (t : OpcodeTable) : Prop :=
  t .hlt = 0x01#8 ∧ ∀ m n, t m = t n → m = n

namespace Config

/-- `MEM_SIZE` (R6): addresses 0..255 exist. -/
abbrev memSize : Nat := 256

/-- `NUM_REGS` (R6): indices 0..7 exist. -/
abbrev numRegs : Nat := 8

/-- The reset entry point, and the load base address (R6, R47, R180). -/
abbrev resetPc : Nat := 0

end Config

end Sys2Proof
end

