-- ==== Sys2Proof/Syntax.lean ====
section
/-! DEFINITION. The instruction set as data: one constructor per row of spec/opcode_table.json (R63). -/

namespace Sys2Proof

/-- A decoded instruction. An operand is the natural number its byte stands for: a register index 0..255 (R23, R64:
the whole byte is the index, and 8..255 is decoded and only refused when the register is accessed) or an immediate
0..255 (R65). `Instr.wellFormed` says that every operand fits its byte. -/
inductive Instr where
  /-- HALT, format N (R100). -/
  | hlt
  /-- LOAD_IMMEDIATE, format RI: destination register, immediate (R110). -/
  | ldi (ra imm : Nat)
  /-- PRINT_REGISTER, format R (R102). -/
  | prn (ra : Nat)
  /-- MULTIPLY, format RR: source and destination, source (R111). -/
  | mul (ra rb : Nat)
  /-- COMPARE, format RR (R112). -/
  | cmp (ra rb : Nat)
  /-- JUMP, format R: the register holding the target (R131). -/
  | jmp (ra : Nat)
  /-- JUMP_IF_EQUAL, format R (R132). -/
  | jeq (ra : Nat)
  /-- JUMP_IF_NOT_EQUAL, format R (R133). -/
  | jne (ra : Nat)
deriving DecidableEq, Repr

/-- The row of R63 an instruction belongs to. -/
def Instr.mnemonic : Instr → Mnemonic
  | .hlt => .hlt
  | .ldi _ _ => .ldi
  | .prn _ => .prn
  | .mul _ _ => .mul
  | .cmp _ _ => .cmp
  | .jmp _ => .jmp
  | .jeq _ => .jeq
  | .jne _ => .jne

end Sys2Proof
end

