-- ==== Sys2Proof/WellFormed.lean ====
section
/-! DEFINITION. The checks on an instruction as syntax: that it can be encoded (every operand is one byte, R60), and
the spec's own notion for programs, that every register operand names one of the eight registers (R23). -/

namespace Sys2Proof

/-- One operand fits its byte (R60: "Every field is a whole byte"). -/
def operandFits (v : Nat) : Bool := decide (v < 256)

/-- Every operand of the instruction fits its byte, so the instruction has an encoding (R60, R61). -/
def Instr.wellFormed : Instr → Bool
  | .hlt => true
  | .ldi a v => operandFits a && operandFits v
  | .prn a => operandFits a
  | .mul a b => operandFits a && operandFits b
  | .cmp a b => operandFits a && operandFits b
  | .jmp a => operandFits a
  | .jeq a => operandFits a
  | .jne a => operandFits a

/-- The register operands of an instruction, in the order of its format (R61). -/
def Instr.registerOperands : Instr → List Nat
  | .hlt => []
  | .ldi a _ => [a]
  | .prn a => [a]
  | .mul a b => [a, b]
  | .cmp a b => [a, b]
  | .jmp a => [a]
  | .jeq a => [a]
  | .jne a => [a]

/-- R23: "Register File indices referenced by operands are always within [0,7] for well-formed programs". -/
def Instr.namesRegisters (i : Instr) : Bool :=
  i.registerOperands.all fun r => decide (r < Config.numRegs)

end Sys2Proof
end

