-- ==== Sys2Proof/Decode.lean ====
section
/-! DEFINITION. The opcode value table's default (R63), the decoder from a fetch window or from any bytes, and after
it the encoder. The decoder compares the whole opcode byte (R63, R72) and never looks at its bit fields. -/

namespace Sys2Proof

/-- R63's opcode values. HALT's is the source's; the other seven are the spec's D1, the LS-8 values (PRESUMED, log
entry 1), which is why decoder, encoder and engine take the table as an argument. -/
def opcodeOf : OpcodeTable
  | .hlt => 0b00000001#8
  | .ldi => 0b10000010#8
  | .prn => 0b01000111#8
  | .mul => 0b10100010#8
  | .cmp => 0b10100111#8
  | .jmp => 0b01010100#8
  | .jeq => 0b01010101#8
  | .jne => 0b01010110#8

/-- The width column of R63: the bytes an instruction occupies and its sequential advance (R68, R84). -/
def Mnemonic.width : Mnemonic → Nat
  | .hlt => 1
  | .ldi => 3
  | .prn => 2
  | .mul => 3
  | .cmp => 3
  | .jmp => 2
  | .jeq => 2
  | .jne => 2

/-- The width of an instruction, from its row of R63 alone (R68). -/
def Instr.width (i : Instr) : Nat := i.mnemonic.width

/-- The three bytes at `pc`, `pc+1` and `pc+2` (R81). -/
structure Window where
  op : Byte
  a : Byte
  b : Byte
deriving DecidableEq, Repr

/-- The window's bytes in ascending address order (R43). -/
def Window.bytes (w : Window) : List Byte := [w.op, w.a, w.b]

/-- Why bytes decode to no instruction. -/
inductive DecodeRefusal where
  /-- The opcode byte is none of the eight of R63: the engine raises DecodeError (R66, R82). -/
  | unknownOpcode (op : Byte)
  /-- Fewer than three bytes were given; the engine always gives a whole window (R62). -/
  | shortWindow
deriving DecidableEq, Repr

/-- The dispatch table's lookup of the opcode byte (R82). -/
def lookupOpcode (t : OpcodeTable) (op : Byte) : Option Mnemonic :=
  Mnemonic.all.find? fun m => t m == op

/-- The operand bytes of a row's format, each read as a natural number; bytes beyond the width are ignored
(R61, R62, R64, R65). -/
def operandsOf (m : Mnemonic) (a b : Byte) : Instr :=
  match m with
  | .hlt => .hlt
  | .ldi => .ldi (zext8 a) (zext8 b)
  | .prn => .prn (zext8 a)
  | .mul => .mul (zext8 a) (zext8 b)
  | .cmp => .cmp (zext8 a) (zext8 b)
  | .jmp => .jmp (zext8 a)
  | .jeq => .jeq (zext8 a)
  | .jne => .jne (zext8 a)

/-- Decode of a fetch window under an opcode table (R82). -/
def decodeWindow (t : OpcodeTable) (w : Window) : Except DecodeRefusal Instr :=
  match lookupOpcode t w.op with
  | none => .error (.unknownOpcode w.op)
  | some m => .ok (operandsOf m w.a w.b)

/-- Decode of any bytes: the first three are the window (R62). -/
def decodeBytes (t : OpcodeTable) : List Byte → Except DecodeRefusal Instr
  | op :: a :: b :: _ => decodeWindow t ⟨op, a, b⟩
  | _ => .error .shortWindow

/-- The window whose bits are `w`, numbered as the opcode table numbers them: bits 7..0 are the first byte, and every
bit above `nbits` is 0. -/
def windowOfWord (nbits w : Nat) : Window :=
  let v := w % 2 ^ nbits
  ⟨BitVec.ofNat 8 v, BitVec.ofNat 8 (v / 2 ^ 8), BitVec.ofNat 8 (v / 2 ^ 16)⟩

/-- The instruction the decoder reads from an instruction whose bits are `w`. -/
def decodeTableWord (nbits w : Nat) : Option Instr :=
  match decodeWindow opcodeOf (windowOfWord nbits w) with
  | .ok i => some i
  | .error _ => none

/-- The operand bytes of an instruction in the order of its format (R61, R69: `[opcode][o1][o2]`). -/
def Instr.operandBytes : Instr → List Byte
  | .hlt => []
  | .ldi a v => [BitVec.ofNat 8 a, BitVec.ofNat 8 v]
  | .prn a => [BitVec.ofNat 8 a]
  | .mul a b => [BitVec.ofNat 8 a, BitVec.ofNat 8 b]
  | .cmp a b => [BitVec.ofNat 8 a, BitVec.ofNat 8 b]
  | .jmp a => [BitVec.ofNat 8 a]
  | .jeq a => [BitVec.ofNat 8 a]
  | .jne a => [BitVec.ofNat 8 a]

/-- The bytes of an instruction under an opcode table, lowest address first (R61). -/
def encode (t : OpcodeTable) (i : Instr) : List Byte := t i.mnemonic :: i.operandBytes

/-- The source's name of a row (R63). -/
def Mnemonic.name : Mnemonic → String
  | .hlt => "HALT"
  | .ldi => "LOAD_IMMEDIATE"
  | .prn => "PRINT_REGISTER"
  | .mul => "MULTIPLY"
  | .cmp => "COMPARE"
  | .jmp => "JUMP"
  | .jeq => "JUMP_IF_EQUAL"
  | .jne => "JUMP_IF_NOT_EQUAL"

/-- The assembly text of R69: the name, then the operands in the source's order, registers as `r<n>`, immediates in
decimal. -/
def Instr.text (i : Instr) : String :=
  match i with
  | .hlt => i.mnemonic.name
  | .ldi a v => i.mnemonic.name ++ " r" ++ toString a ++ "," ++ toString v
  | .prn a => i.mnemonic.name ++ " r" ++ toString a
  | .mul a b => i.mnemonic.name ++ " r" ++ toString a ++ ",r" ++ toString b
  | .cmp a b => i.mnemonic.name ++ " r" ++ toString a ++ ",r" ++ toString b
  | .jmp a => i.mnemonic.name ++ " r" ++ toString a
  | .jeq a => i.mnemonic.name ++ " r" ++ toString a
  | .jne a => i.mnemonic.name ++ " r" ++ toString a

end Sys2Proof
end

