-- ==== Sys2Proof/Machine/State.lean ====
section
/-! DEFINITION. The machine's state as plain data, with every component of 10_state.md's tuple
`(mem, x, pc, fl, status, fault, out)`, and the state after reset (R33). -/

namespace Sys2Proof.Machine

/-- The run state (R29). HALTED and FAULTED are terminal (R80). -/
inductive Status where
  | running | halted | faulted
deriving DecidableEq, Repr

/-- The ALU's operation selector (R88): the closed set, and every selector outside it (R92), which the source gives no
encoding (N17) and the model names by a number (DESIGN CHOICE, log entry 5). -/
inductive AluOp where
  | add | multiply | compare
  | other (code : Nat)
deriving DecidableEq, Repr

/-- The `info` of a ProgramFileError: "the line number, or "missing file"" (R151). Lines count from 1 (W8). -/
inductive LoadError where
  | missingFile
  | line (n : Nat)
deriving DecidableEq, Repr

/-- The five causes of R151, each with the `info` it records. -/
inductive FaultCause where
  /-- Code 1: a memory access above 255; the offending address (R42, R153). -/
  | addressingErrorMem (addr : Nat)
  /-- Code 2: a register access above 7; the offending index (R83, R154). -/
  | addressingErrorReg (index : Nat)
  /-- Code 3: an opcode byte not in the table; the byte (R82, R155). -/
  | decodeError (op : Byte)
  /-- Code 4: an ALU selector outside the closed set; the selector (R92, R156). -/
  | unsupportedAluOp (selector : AluOp)
  /-- Code 5: the host loader's error (R157, R182). -/
  | programFileError (info : LoadError)
deriving DecidableEq, Repr

/-- The fault record `(cause, pc, info)` of R30; `info` is carried by the cause. -/
structure FaultRecord where
  cause : FaultCause
  pc : Nat
deriving DecidableEq, Repr

/-- The 256 cells of R40 as (address, byte) pairs in the canonical form of `Memory.wf`. -/
abbrev Memory := List Host.Cell

/-- The complete state of the core (R32: "Nothing else is state"). -/
structure State where
  /-- The memory array (R40). -/
  mem : Memory
  /-- The eight registers, unbounded natural numbers (R20, R21). -/
  x : Vector Nat 8
  /-- The program counter, a natural number (R25). -/
  pc : Nat
  /-- The flag register; bit 0 is `E` (R27). -/
  fl : Byte
  /-- The run state (R29). -/
  status : Status
  /-- The fault record (R30). -/
  fault : Option FaultRecord
  /-- The output stream, oldest value first (R31). -/
  out : List Nat
deriving DecidableEq, Repr

/-- Reasons for which a step has no next state. There is none: every error of this hardware has an effect the spec
describes (R152: FAULTED and the fault record), which the model takes as a next state (log entry 2). -/
inductive Fault where
deriving DecidableEq, Repr

/-- Instructions without a meaning. Raised by an arm of `exec` that has none yet (safe); no arm is left so. -/
inductive Refusal where
  | notModelled (mnemonic : String)
deriving DecidableEq, Repr

/-- The outcome of a step or of a handler. -/
abbrev Result := Host.Outcome State Fault Refusal

/-- The state of R33 and R180 with no program image: every cell and register 0, `pc` at the entry point, `E` clear,
RUNNING, no fault, nothing printed. -/
def State.reset : State where
  mem := []
  x := Vector.replicate 8 0
  pc := Config.resetPc
  fl := 0#8
  status := .running
  fault := none
  out := []

end Sys2Proof.Machine
end

