-- ==== Sys2Proof/Machine/Ops.lean ====
section
/-! DEFINITION. The operations over memory, the program counter, the output port and the fault mechanism that every
handler shares: R42 (memory ports), R84 (advance), R104 (emit), R86 and R152 (raising a fault). -/

namespace Sys2Proof.Machine

/-- What an address without an entry reads as: "zero-initialized at construction" (R33, R40). -/
def Memory.unlisted : Byte := 0#8

/-- The canonical form: addresses strictly rising, every address one of the 256, no entry equal to what an unlisted
address reads as. -/
abbrev Memory.wf (m : Memory) : Prop :=
  m.Pairwise (fun c d => c.1 < d.1) ∧ ∀ c ∈ m, c.1 < Config.memSize ∧ c.2 ≠ Memory.unlisted

/-- The byte at an address, listed or not. -/
def Memory.lookup : Memory → Nat → Byte
  | [], _ => Memory.unlisted
  | c :: m, a => if c.1 = a then c.2 else Memory.lookup m a

/-- `m` with the entry `(a, v)` in front, unless `v` is what an unlisted address reads as. -/
def Memory.cons (a : Nat) (v : Byte) (m : Memory) : Memory :=
  if v = Memory.unlisted then m else (a, v) :: m

/-- The byte `v` placed at address `a`, the canonical form kept. -/
def Memory.store : Memory → Nat → Byte → Memory
  | [], a, v => Memory.cons a v []
  | c :: m, a, v =>
    if a < c.1 then Memory.cons a v (c :: m)
    else if a = c.1 then Memory.cons a v m
    else c :: Memory.store m a v

/-- `MemRead(addr, 1)` (R42). -/
def Memory.read (m : Memory) (a : Nat) : Except FaultCause Byte :=
  if a > 255 then .error (.addressingErrorMem a) else .ok (m.lookup a)

/-- `MemWrite(addr, 1, v)` (R42), the host loader's port (R45). -/
def Memory.write (m : Memory) (a : Nat) (v : Byte) : Except FaultCause Memory :=
  if a > 255 then .error (.addressingErrorMem a) else .ok (m.store a v)

/-- The fetch of R81: three reads in this order, before dispatch, with no wrap. -/
def State.fetch (s : State) : Except FaultCause Window := do
  let op ← s.mem.read s.pc
  let a ← s.mem.read (s.pc + 1)
  let b ← s.mem.read (s.pc + 2)
  return ⟨op, a, b⟩

/-- `pc <- pc + width`, exact (R84). -/
def State.advance (s : State) (width : Nat) : State := { s with pc := s.pc + width }

/-- `pc <- target`, any natural number (R131, R134). -/
def State.jump (s : State) (target : Nat) : State := { s with pc := target }

/-- `emit(v)`: append to the output stream (R104). -/
def State.emit (s : State) (v : Nat) : State := { s with out := s.out ++ [v] }

/-- `status <- HALTED` (R100). -/
def State.halt (s : State) : State := { s with status := .halted }

/-- `raise cause(info)`: FAULTED and the record with the faulting instruction's address, nothing else (R86, R152). -/
def State.raise (s : State) (c : FaultCause) : State :=
  { s with status := .faulted, fault := some ⟨c, s.pc⟩ }

/-- The all-or-nothing end of a handler (R85, R86): all its writes, or the fault alone over the state before the
step `s`. -/
def settle (s : State) (r : Except FaultCause State) : Result :=
  match r with
  | .ok t => .next t
  | .error c => .next (s.raise c)

/-- The numeric code of a cause (R151). -/
def FaultCause.code : FaultCause → Nat
  | .addressingErrorMem _ => 1
  | .addressingErrorReg _ => 2
  | .decodeError _ => 3
  | .unsupportedAluOp _ => 4
  | .programFileError _ => 5

/-- The status port (R94, R186): what the host observes of a run. -/
def State.statusPort (s : State) : Status × Option FaultRecord := (s.status, s.fault)

end Sys2Proof.Machine
end

