-- ==== Sys2Proof/Machine/Operands.lean ====
section
/-! DEFINITION. The operand forms: a register operand read or written (R20, R21, R64, R83, R93) and the immediate
(R65). The immediate's zero extension is done where its byte is decoded (`operandsOf`). -/

namespace Sys2Proof.Machine

/-- `checkReg(i)` (R83): the register an index names, or the addressing error. -/
def checkReg (i : Nat) : Except FaultCause (Fin 8) :=
  if h : i < 8 then .ok ⟨i, h⟩ else .error (.addressingErrorReg i)

/-- `x[i]`, the index checked first (R8, R83). -/
def State.readReg (s : State) (i : Nat) : Except FaultCause Nat := do
  let r ← checkReg i
  return s.x[r]

/-- `x[i] <- v`, the index checked first, the value stored exactly (R8, R21, R83). -/
def State.writeReg (s : State) (i v : Nat) : Except FaultCause State := do
  let r ← checkReg i
  return { s with x := s.x.set r v }

end Sys2Proof.Machine
end

