-- ==== Sys2Proof/Machine/Flags.lean ====
section
/-! DEFINITION. The flag register: its one defined bit `E`, read by JEQ and JNE and computed by COMPARE (R27, R28,
R91, R112). -/

namespace Sys2Proof.Machine

/-- `fl[0] == 1` (R132, R133; D12: the named bit). -/
def State.equalFlag (s : State) : Bool := s.fl.getLsbD 0

/-- The whole new flag register of a comparison: 1 if equal, else 0 (R91). Bits 7..1 are written 0 as R91 and D11 say;
no statement about the model rests on them (U4, log entry 4). -/
def compareFlags (a b : Nat) : Byte := if a = b then 0b00000001#8 else 0b00000000#8

/-- `fl <- f`, the whole register (R112). -/
def State.setFlags (s : State) (f : Byte) : State := { s with fl := f }

end Sys2Proof.Machine
end

