-- ==== Sys2Proof/Machine/Alu.lean ====
section
/-! DEFINITION. The ALU (R88 to R92): a pure function whose result the handler applies. -/

namespace Sys2Proof.Machine

/-- What the ALU returns: a new value for the destination register or a new flag value (R88). -/
inductive AluResult where
  | reg (v : Nat)
  | flag (f : Byte)
deriving DecidableEq, Repr

/-- `ALU(op, A, B)` (R88): exact sum (R89), exact product (R90), equality (R91), else UnsupportedAluOp (R92). -/
def alu (op : AluOp) (a b : Nat) : Except FaultCause AluResult :=
  match op with
  | .add => .ok (.reg (a + b))
  | .multiply => .ok (.reg (a * b))
  | .compare => .ok (.flag (compareFlags a b))
  | .other n => .error (.unsupportedAluOp (.other n))

/-- The handler's write of an ALU result: to the destination register, or to the flag register (R86, R88). -/
def State.applyAlu (s : State) (dest : Nat) : AluResult → Except FaultCause State
  | .reg v => s.writeReg dest v
  | .flag f => .ok (s.setFlags f)

/-- The shared body of the RR instructions (R111, R112): register A checked and read, then register B, then the ALU,
then its write. -/
def State.aluRR (s : State) (op : AluOp) (a b : Nat) : Except FaultCause State := do
  let va ← s.readReg a
  let vb ← s.readReg b
  let r ← alu op va vb
  s.applyAlu a r

end Sys2Proof.Machine
end

