-- ==== Sys2Proof/Machine/Control.lean ====
section
/-! DEFINITION. JUMP, JUMP_IF_EQUAL and JUMP_IF_NOT_EQUAL (43_control.md). -/

namespace Sys2Proof.Machine

/-- `checkReg(a)`, then `pc <- x[a]` (R130, R131). -/
def State.jumpToReg (s : State) (a : Nat) : Except FaultCause State := do
  let target ← s.readReg a
  return s.jump target

/-- JUMP (R131). -/
def execJmp (a : Nat) (s : State) : Result := settle s (s.jumpToReg a)

/-- JUMP_IF_EQUAL (R132): the register is not checked when the jump is not taken (D8). -/
def execJeq (a : Nat) (s : State) : Result :=
  settle s (if s.equalFlag then s.jumpToReg a else .ok (s.advance Mnemonic.jeq.width))

/-- JUMP_IF_NOT_EQUAL (R133): the register is not checked when the jump is not taken (D8). -/
def execJne (a : Nat) (s : State) : Result :=
  settle s (if s.equalFlag then .ok (s.advance Mnemonic.jne.width) else s.jumpToReg a)

end Sys2Proof.Machine
end

