-- ==== Sys2Proof/Machine/DataAlu.lean ====
section
/-! DEFINITION. LOAD_IMMEDIATE, MULTIPLY and COMPARE (42_data_alu.md). -/

namespace Sys2Proof.Machine

/-- LOAD_IMMEDIATE (R110). -/
def execLdi (a v : Nat) (s : State) : Result :=
  settle s do
    let t ← s.writeReg a v
    return t.advance Mnemonic.ldi.width

/-- MULTIPLY (R111). -/
def execMul (a b : Nat) (s : State) : Result :=
  settle s do
    let t ← s.aluRR .multiply a b
    return t.advance Mnemonic.mul.width

/-- COMPARE (R112). -/
def execCmp (a b : Nat) (s : State) : Result :=
  settle s do
    let t ← s.aluRR .compare a b
    return t.advance Mnemonic.cmp.width

end Sys2Proof.Machine
end

