-- ==== Sys2Proof/Machine/HaltIo.lean ====
section
/-! DEFINITION. HALT and PRINT_REGISTER (41_halt_io.md). -/

namespace Sys2Proof.Machine

/-- HALT (R100): terminal; `pc` keeps the HALT's address (D10). -/
def execHlt (s : State) : Result := .next s.halt

/-- PRINT_REGISTER (R102): the register's value, untruncated, to the output port. -/
def execPrn (a : Nat) (s : State) : Result :=
  settle s do
    let v ← s.readReg a
    return (s.emit v).advance Mnemonic.prn.width

end Sys2Proof.Machine
end

