-- ==== Sys2Proof/Machine/Dispatch.lean ====
section
/-! DEFINITION. The dispatch table from instruction to handler (R82, R87). -/

namespace Sys2Proof.Machine

def exec (i : Instr) (s : State) : Host.Outcome State Fault Refusal :=
  match i with
  | .hlt => Sys2Proof.Machine.execHlt s
  | .ldi ra imm => Sys2Proof.Machine.execLdi ra imm s
  | .prn ra => Sys2Proof.Machine.execPrn ra s
  | .mul ra rb => Sys2Proof.Machine.execMul ra rb s
  | .cmp ra rb => Sys2Proof.Machine.execCmp ra rb s
  | .jmp ra => Sys2Proof.Machine.execJmp ra s
  | .jeq ra => Sys2Proof.Machine.execJeq ra s
  | .jne ra => Sys2Proof.Machine.execJne ra s

end Sys2Proof.Machine
end

