-- ==== Sys2Proof/Machine/Engine.lean ====
section
/-! DEFINITION. The fetch-decode-execute engine under any opcode table (R80 to R82), the optional trace port (R171),
and the placing of one instruction where the next step fetches. -/

namespace Sys2Proof.Machine

/-- Decode and dispatch of a fetched window: the handler, or DecodeError (R82). -/
def dispatchWindow (t : OpcodeTable) (s : State) (w : Window) : Result :=
  match decodeWindow t w with
  | .ok i => exec i s
  | .error _ => .next (s.raise (.decodeError w.op))

/-- One step of a RUNNING engine: fetch, then decode and dispatch (R81, R82, R158). -/
def runningStep (t : OpcodeTable) (s : State) : Result :=
  match s.fetch with
  | .ok w => dispatchWindow t s w
  | .error c => .next (s.raise c)

/-- The engine under an opcode table. From a terminal state it takes no step and the state never changes again (R80):
the answer is the state itself (DESIGN CHOICE, log entry 3). -/
def engineStep (t : OpcodeTable) (s : State) : Result :=
  match s.status with
  | .running => runningStep t s
  | .halted => .next s
  | .faulted => .next s

/-- What the trace port shows (R94, R171). -/
structure TraceTuple where
  pc : Nat
  window : Window
  x : Vector Nat 8
deriving DecidableEq, Repr

/-- The optional trace hook (R171): `(pc, op, a, b, x[0..7])` once per step, after a successful fetch and before the
handler (D22); nothing for a step that faults at fetch, and nothing in a terminal state. It changes no state. -/
def State.trace (s : State) : Option TraceTuple :=
  match s.status, s.fetch with
  | .running, .ok w => some ⟨s.pc, w, s.x⟩
  | _, _ => none

/-- A window's three bytes stored at an address and the two after it. -/
def Memory.placeWindow (m : Memory) (a : Nat) (w : Window) : Memory :=
  ((m.store a w.op).store (a + 1) w.a).store (a + 2) w.b

/-- The host's load of one instruction where the next step fetches it, outside a run: at `pc`, or at the reset entry
point where no window fits at `pc` (R81), with the engine RUNNING (log entry 6). -/
def State.placeInstruction (s : State) (w : Window) : State :=
  let base := if s.pc + 2 > 255 then Config.resetPc else s.pc
  { s with mem := s.mem.placeWindow base w, pc := base, status := .running, fault := none }

end Sys2Proof.Machine
end

