-- ==== Sys2Proof/Machine/Loader.lean ====
section
/-! DEFINITION. The host loader's contract towards the core (R45, R70, R180 to R182): a program file to the state the
run starts in. The core never runs this; it is the only writer of memory. -/

namespace Sys2Proof.Machine

/-- What one line of a program file is (R182). -/
inductive LineKind where
  | skip
  | byte (v : Byte)
  | malformed
deriving DecidableEq, Repr

/-- R182.1: delete everything from the first `#`. -/
def stripComment (l : List Char) : List Char := l.takeWhile fun c => c != '#'

/-- R182.2: trim whitespace at both ends (which characters: log entry 9). -/
def trimBlanks (l : List Char) : List Char :=
  ((l.dropWhile Char.isWhitespace).reverse.dropWhile Char.isWhitespace).reverse

/-- The base-2 value of a line of `0` and `1`, most significant digit first. -/
def binaryValue (l : List Char) : Nat :=
  l.foldl (fun n c => 2 * n + (if c = '1' then 1 else 0)) 0

/-- The acceptance rule for one line (R182). -/
def lineKind (l : List Char) : LineKind :=
  match trimBlanks (stripComment l) with
  | [] => .skip
  | ds =>
    if ds.all (fun c => c == '0' || c == '1') && decide (binaryValue ds ≤ 255)
    then .byte (BitVec.ofNat 8 (binaryValue ds)) else .malformed

/-- The load loop: each byte at the next address through the write port (R181). `n` is the number of the next line
and `a` the next address. A malformed line, or a byte that would go to address 256, ends it (R182). -/
def loadLines : Nat → Nat → Memory → List LineKind → Except LoadError Memory
  | _, _, m, [] => .ok m
  | n, a, m, .skip :: ls => loadLines (n + 1) a m ls
  | n, _, _, .malformed :: _ => .error (.line n)
  | n, a, m, .byte v :: ls =>
    match m.write a v with
    | .ok m' => loadLines (n + 1) (a + 1) m' ls
    | .error _ => .error (.line n)

/-- The state a run starts in: loaded and RUNNING (R180), or FAULTED with ProgramFileError at pc 0 and no step to come
(R151, R157, R182). -/
def started (r : Except LoadError Memory) : State :=
  match r with
  | .ok m => { State.reset with mem := m }
  | .error e => State.reset.raise (.programFileError e)

/-- Construction from a program file, `none` for a missing one (R180, R182). -/
def construct (file : Option (List (List Char))) : State :=
  match file with
  | none => started (.error .missingFile)
  | some ls => started (loadLines 1 Config.resetPc [] (ls.map lineKind))

/-- Construction from an image of bytes (R181), as a file with one byte on each line (R70). -/
def loadImage (p : List Byte) : State := started (loadLines 1 Config.resetPc [] (p.map .byte))

end Sys2Proof.Machine
end

