-- ==== Sys2Proof/Machine/Step.lean ====
section
/-! DEFINITION. The machine's step: the engine under R63's default opcode table. -/

namespace Sys2Proof.Machine

/-- One step (R80 to R82). -/
def step (s : State) : Host.Outcome State Fault Refusal := engineStep opcodeOf s

/-- `s` with the instruction whose bits are `w` (numbered as the opcode table numbers them, bits above `nbits` zero)
where the next step fetches. -/
def State.withFetchWord (s : State) (nbits w : Nat) : State := s.placeInstruction (windowOfWord nbits w)

end Sys2Proof.Machine
end

