-- ==== Sys2Proof/Safety.lean ====
section
/-! DEFINITION. The terms the statements use: which registers an instruction accesses and writes (R22), the invariant
of the machine (R30, R151, the memory's canonical form), the end of a run (R80, R101, R185) and the values a run
prints (R103). -/

namespace Sys2Proof.Machine

/-- R80: HALTED and FAULTED are terminal. -/
def State.Terminal (s : State) : Prop := s.status ≠ .running

/-- R101, R185: the run ended in success. -/
def State.Succeeded (s : State) : Prop := s.status = .halted

/-- The state after `n` steps. (`Host.Core.run` of this machine, in the model's own types: `core_run_eq` in
Laws/Step.lean.) -/
def runFor : Nat → State → Result
  | 0, s => .next s
  | n + 1, s =>
    match step s with
    | .next t => runFor n t
    | .fault r => .fault r
    | .refused r => .refused r

/-- The byte a line of a program file contributes to the image, if any (R70, R181). -/
def LineKind.toByte : LineKind → Option Byte
  | .byte v => some v
  | .skip => none
  | .malformed => none

/-- The image `p[0..n-1]` of a program file's lines (R181). -/
def imageBytes (ls : List (List Char)) : List Byte := ls.filterMap fun l => (lineKind l).toByte

/-- The registers a handler accesses in a state, in the order it checks them: the table of R22 and the order of R158.
A conditional jump accesses its register only when taken (R83, D8). -/
def accessed (i : Instr) (s : State) : List Nat :=
  match i with
  | .hlt => []
  | .ldi a _ => [a]
  | .prn a => [a]
  | .mul a b => [a, b]
  | .cmp a b => [a, b]
  | .jmp a => [a]
  | .jeq a => if s.fl.getLsbD 0 then [a] else []
  | .jne a => if s.fl.getLsbD 0 then [] else [a]

/-- The first register index above 7 that the handler would access: the one its fault records (R154, R158). -/
def firstBadRegister (i : Instr) (s : State) : Option Nat := (accessed i s).find? fun r => decide (7 < r)

/-- The register an instruction writes (R22). -/
def destination : Instr → Option Nat
  | .ldi a _ => some a
  | .mul a _ => some a
  | .hlt => none
  | .prn _ => none
  | .cmp _ _ => none
  | .jmp _ => none
  | .jeq _ => none
  | .jne _ => none

/-- What R151's table says of the info a cause can record in this hardware; UnsupportedAluOp is never recorded
(R92, R156). -/
def FaultCause.Legal : FaultCause → Prop
  | .addressingErrorMem a => 256 ≤ a
  | .addressingErrorReg i => 8 ≤ i ∧ i ≤ 255
  | .decodeError op => ∀ m, opcodeOf m ≠ op
  | .unsupportedAluOp _ => False
  | .programFileError _ => True

/-- The invariant every step keeps. It rules out only states that no run from a constructed engine reaches. -/
structure State.Inv (s : State) : Prop where
  /-- The memory is in its canonical form. -/
  memWf : s.mem.wf
  /-- R30: the record is set exactly when the status is FAULTED. -/
  faultIffFaulted : s.fault.isSome ↔ s.status = .faulted
  /-- R152: the record's pc is the pc, which a fault does not move. -/
  faultPc : ∀ r, s.fault = some r → r.pc = s.pc
  /-- R151: the record's info is one its cause can have. -/
  faultLegal : ∀ r, s.fault = some r → r.cause.Legal

/-- The value a step puts on the output port: a RUNNING engine's window holds PRN's opcode and names one of the eight
registers (R82, R102). -/
def printed (s : State) : Option Nat :=
  match s.trace with
  | some tr =>
    if tr.window.op = opcodeOf .prn then
      if h : tr.window.a.toNat < 8 then some tr.x[tr.window.a.toNat] else none
    else none
  | none => none

/-- The values the PRINT_REGISTER executions of the next `n` steps print, in execution order (R103). -/
def printedBy : Nat → State → List Nat
  | 0, _ => []
  | n + 1, s =>
    match step s with
    | .next t => (printed s).toList ++ printedBy n t
    | .fault _ => []
    | .refused _ => []

end Sys2Proof.Machine
end

