-- ==== Sys2Proof/Certificates/Slice0/Obligations.lean ====
section
/-! DEFINITION. The statements for the provers, from the rules of spec/. A fault's record, its precision and the names
FAULTED and `(cause, pc, info)` are the spec's own decisions D5 and D6, the order of checks its D7, a check on access
only its D8, the pc after HALT its D10: a statement that rests on one of them says so and has basis 'derived'. No
statement rests on bits 7..1 of `fl` (U4). -/

open Sys2Proof Sys2Proof.Machine

/-! ### Reset, loading and memory -/

/-- R24: every register holds 0 at reset, so a register no instruction has written reads as 0. -/
def Obligations.ResetRegistersReadZero : Prop :=
  ∀ i, i < 8 → State.reset.readReg i = .ok 0

/-- R181: a program file with no malformed line and an image of at most 256 bytes puts them at consecutive addresses
from 0 and leaves every other cell 0. R33, R180: the rest of the state is registers 0, pc 0, flag 0, RUNNING, no fault
(the spec's decision D5, log entry 2) and nothing printed (its D18). An image given as bytes gives the same memory. -/
def Obligations.LoadedFileGivesInitialState : Prop :=
  (∀ ls : List (List Char), (∀ l ∈ ls, lineKind l ≠ .malformed) → (imageBytes ls).length ≤ 256 →
    (∀ k, k < 256 → (construct (some ls)).mem.read k = .ok ((imageBytes ls).getD k 0#8)) ∧
    (∀ i, (h : i < 8) → (construct (some ls)).x[i] = 0) ∧
    (construct (some ls)).pc = 0 ∧ (construct (some ls)).fl = 0#8 ∧ (construct (some ls)).status = .running ∧
    (construct (some ls)).fault = none ∧ (construct (some ls)).out = []) ∧
  (∀ p : List Byte, p.length ≤ 256 → ∀ k, k < 256 → (loadImage p).mem.read k = .ok (p.getD k 0#8))

/-- R182 (D19), R157 (D5): a file with a malformed line, a missing file, a file without a malformed line whose image
(comments and blank lines apart) has more than 256 bytes, and an image of more than 256 bytes given as bytes each start
the run FAULTED with ProgramFileError at pc 0. The recorded line number is that of a line of the file; which line is the
model's choice (log entry 8). No step changes that state: R80, with the model's choice that a step of a terminal engine
answers the same state (log entry 3). -/
def Obligations.LoadFailureFaultsBeforeAnyStep : Prop :=
  (∀ n, runFor n (construct none) = .next (construct none)) ∧
  (construct none).status = .faulted ∧
  (construct none).fault = some ⟨.programFileError .missingFile, 0⟩ ∧
  (∀ ls : List (List Char), (∃ l ∈ ls, lineKind l = .malformed) →
    (construct (some ls)).status = .faulted ∧
    (∃ n, 1 ≤ n ∧ n ≤ ls.length ∧ (construct (some ls)).fault = some ⟨.programFileError (.line n), 0⟩) ∧
    ∀ n, runFor n (construct (some ls)) = .next (construct (some ls))) ∧
  (∀ ls : List (List Char), (∀ l ∈ ls, lineKind l ≠ .malformed) → 256 < (imageBytes ls).length →
    (construct (some ls)).status = .faulted ∧
    (∃ n, 1 ≤ n ∧ n ≤ ls.length ∧ (construct (some ls)).fault = some ⟨.programFileError (.line n), 0⟩) ∧
    ∀ n, runFor n (construct (some ls)) = .next (construct (some ls))) ∧
  (∀ p : List Byte, 256 < p.length →
    (loadImage p).status = .faulted ∧
    (∃ n, 1 ≤ n ∧ n ≤ p.length ∧ (loadImage p).fault = some ⟨.programFileError (.line n), 0⟩) ∧
    ∀ n, runFor n (loadImage p) = .next (loadImage p))

/-- R182 (D19), R70: what follows the first `#` and the blanks at both ends of a line do not matter; an empty line is
skipped; of the lines that are left, without a `#` and with no blank at either end, one of `0` and `1` with value at
most 255 is that byte, and any other is malformed, one with a blank between digits too. Which characters are blanks is
the model's choice (log entry 9). -/
def Obligations.LoaderLineAcceptance : Prop :=
  (∀ l comment : List Char, '#' ∉ l → lineKind (l ++ '#' :: comment) = lineKind l) ∧
  (∀ l w w' : List Char, (∀ c ∈ w ++ w', c.isWhitespace = true) → lineKind (w ++ l ++ w') = lineKind l) ∧
  lineKind [] = .skip ∧
  (∀ ds : List Char, ds ≠ [] → '#' ∉ ds → (∀ c, ds.head? = some c → c.isWhitespace = false) →
    (∀ c, ds.getLast? = some c → c.isWhitespace = false) →
    ((∀ c ∈ ds, c = '0' ∨ c = '1') ∧ binaryValue ds ≤ 255 →
      lineKind ds = .byte (BitVec.ofNat 8 (binaryValue ds))) ∧
    (¬ ((∀ c ∈ ds, c = '0' ∨ c = '1') ∧ binaryValue ds ≤ 255) → lineKind ds = .malformed))

/-- R42: both memory ports refuse an address above 255 with the addressing error that names it, with no reduction
modulo 256; at any other address a read answers the cell's byte and a write changes that cell and no other. R152 (the
spec's D5 and D6, log entry 2): the error, surfaced by a fetch, is FAULTED with the record of cause and pc; R80: the run
is over, which the model says by a step that answers the same state (log entry 3). -/
def Obligations.MemoryPortsCheckTheirAddress : Prop :=
  (∀ (m : Memory) (a : Nat) (v : Byte), m.wf →
    (255 < a → m.read a = .error (.addressingErrorMem a) ∧ m.write a v = .error (.addressingErrorMem a)) ∧
    (a ≤ 255 → ∃ m', m.write a v = .ok m' ∧
      ∀ b, m'.read b = if b = a then .ok v else m.read b)) ∧
  (∀ (s : State) (c : FaultCause), s.status = .running → s.fetch = .error c →
    ∃ t, step s = .next t ∧ t.status = .faulted ∧ t.fault = some ⟨c, s.pc⟩ ∧
      ∀ n, runFor n t = .next t)

/-- R40: the memory is 256 cells and nothing else: two canonical memories whose 256 cells read the same are the same
data. The canonical form is the model's representation of R40's array. -/
def Obligations.MemoryIsItsCells : Prop :=
  ∀ m m' : Memory, m.wf → m'.wf → (∀ a, a < 256 → m.read a = m'.read a) → m = m'

/-- R41, R45, R52: no step writes memory, so it is constant over every run. -/
def Obligations.MemoryIsConstantDuringARun : Prop :=
  ∀ n s t, runFor n s = .next t → ∀ a, t.mem.read a = s.mem.read a

/-! ### Encoding and decoding -/

/-- R63, R66, R67: the default table is legal (HALT is 0x01, the eight values distinct), and every byte value but its
eight is illegal, 0x00, 0xA0 and 0x80 among them. The seven values other than HALT's are the spec's D1 (log
entry 1). -/
def Obligations.DefaultOpcodeTable : Prop :=
  opcodeOf.Legal ∧
  (∀ op : Byte, lookupOpcode opcodeOf op = none ↔
    op ∉ [0x01#8, 0x82#8, 0x47#8, 0xA2#8, 0xA7#8, 0x54#8, 0x55#8, 0x56#8]) ∧
  lookupOpcode opcodeOf 0x00#8 = none ∧ lookupOpcode opcodeOf 0xA0#8 = none ∧ lookupOpcode opcodeOf 0x80#8 = none

/-- R61, R63, R69: words written out from the spec's formats decode to the instructions they stand for. The values are
the spec's D1 (log entry 1). -/
def Obligations.SpecWordsDecode : Prop :=
  decodeBytes opcodeOf [0b00000001#8, 0#8, 0#8] = .ok .hlt ∧
  decodeBytes opcodeOf [0b10000010#8, 7#8, 255#8] = .ok (.ldi 7 255) ∧
  decodeBytes opcodeOf [0b01000111#8, 3#8, 9#8] = .ok (.prn 3) ∧
  decodeBytes opcodeOf [0b10100010#8, 0#8, 1#8] = .ok (.mul 0 1) ∧
  decodeBytes opcodeOf [0b10100111#8, 4#8, 5#8] = .ok (.cmp 4 5) ∧
  decodeBytes opcodeOf [0b01010100#8, 2#8, 0#8] = .ok (.jmp 2) ∧
  decodeBytes opcodeOf [0b01010101#8, 255#8, 0#8] = .ok (.jeq 255) ∧
  decodeBytes opcodeOf [0b01010110#8, 6#8, 0#8] = .ok (.jne 6)

/-- R61, R62, R63: under every legal opcode table (HALT 0x01, eight distinct values: all a model may rely on from the
source), decoding the encoding of a well-formed instruction gives it back, whatever bytes follow it. -/
def Obligations.DecodeOfEncodeIsTheInstruction : Prop :=
  ∀ t : OpcodeTable, t.Legal → ∀ i : Instr, i.wellFormed = true → ∀ p q : Byte,
    decodeBytes t (encode t i ++ [p, q]) = .ok i

/-- R60, R61, R68: what a window decodes to is well formed and its encoding is the window's first `width` bytes: no two
instructions share a word and no byte of the instruction is dropped. -/
def Obligations.EncodeOfDecodeIsTheWindow : Prop :=
  ∀ (t : OpcodeTable) (w : Window) (i : Instr), decodeWindow t w = .ok i →
    i.wellFormed = true ∧ encode t i = w.bytes.take i.width

/-- R62 (D29): bytes at or beyond the width are ignored: windows that agree on an instruction's width decode alike. -/
def Obligations.BytesBeyondTheWidthAreIgnored : Prop :=
  ∀ (t : OpcodeTable) (w w' : Window) (i : Instr), decodeWindow t w = .ok i →
    w'.bytes.take i.width = w.bytes.take i.width → decodeWindow t w' = .ok i

/-! ### The step -/

/-- R80, R81, R82: when the three bytes at the pc decode to an instruction, the step of a RUNNING engine is that
instruction's handler. -/
def Obligations.StepRunsTheDecodedInstruction : Prop :=
  ∀ (s : State) (op a b : Byte) (i : Instr), s.status = .running →
    s.mem.read s.pc = .ok op → s.mem.read (s.pc + 1) = .ok a → s.mem.read (s.pc + 2) = .ok b →
    decodeWindow opcodeOf ⟨op, a, b⟩ = .ok i → step s = exec i s

/-- R63, R81, R82: under every legal opcode table, an engine whose memory holds an instruction's encoding at the pc, the
window inside memory, runs that instruction: nothing rests on the seven values of D1. -/
def Obligations.EncodedInstructionRunsUnderEveryTable : Prop :=
  ∀ t : OpcodeTable, t.Legal → ∀ (s : State) (i : Instr), i.wellFormed = true → s.status = .running →
    s.pc ≤ 253 → (∀ k, k < i.width → s.mem.read (s.pc + k) = .ok ((encode t i).getD k 0#8)) →
    engineStep t s = exec i s

/-- R81, R153, R158 (D4, D5): a RUNNING engine whose window reaches above 255 faults before decode, whatever the bytes
are, with the first offending address, and changes nothing else. -/
def Obligations.WindowAboveMemoryFaultsAtFetch : Prop :=
  ∀ (t : OpcodeTable) (s : State), s.status = .running →
    (s.pc = 254 ∨ s.pc = 255 → engineStep t s =
      .next { s with status := .faulted, fault := some ⟨.addressingErrorMem 256, s.pc⟩ }) ∧
    (255 < s.pc → engineStep t s =
      .next { s with status := .faulted, fault := some ⟨.addressingErrorMem s.pc, s.pc⟩ })

/-- R66, R82, R155 (record: D5, D6): under every opcode table an opcode byte of no row raises DecodeError, recorded with
the byte and the pc, changes nothing else, and the run is over. -/
def Obligations.UnknownOpcodeEndsInDecodeError : Prop :=
  ∀ (t : OpcodeTable) (s : State) (op : Byte), s.status = .running → s.pc ≤ 253 → s.mem.read s.pc = .ok op →
    (∀ m, t m ≠ op) →
    engineStep t s = .next { s with status := .faulted, fault := some ⟨.decodeError op, s.pc⟩ } ∧
    engineStep t { s with status := .faulted, fault := some ⟨.decodeError op, s.pc⟩ } =
      .next { s with status := .faulted, fault := some ⟨.decodeError op, s.pc⟩ }

/-- R80, R101, R185: a HALTED or FAULTED engine never changes again. That its step answers the same state is the model's
choice (log entry 3). -/
def Obligations.TerminalStatesNeverChange : Prop :=
  ∀ s : State, s.Terminal → ∀ n, runFor n s = .next s

/-- R85, R101, R100 (pc kept: D10): a RUNNING engine enters HALTED, the success state, only where HALT's opcode byte stands at the pc and the
window is inside memory, and that step changes nothing but the status. -/
def Obligations.OnlyHaltHalts : Prop :=
  ∀ s t : State, s.status = .running → step s = .next t → t.Succeeded →
    s.pc ≤ 253 ∧ s.mem.read s.pc = .ok (opcodeOf .hlt) ∧ t = { s with status := .halted }

/-- R152, R163: every run has a next state: no run of the model stops at a fault outcome or a refusal. That a fault is
a next state is log entry 2; in a terminal state, where R80 gives no step, the next state is the model's choice (log
entry 3). -/
def Obligations.EveryRunHasANextState : Prop :=
  ∀ n s, ∃ t, runFor n s = .next t

/-- R169 (D27), R131: a JUMP to its own address repeats forever: RUNNING, and the same state after any number of
steps. -/
def Obligations.JumpToItselfNeverEnds : Prop :=
  ∀ (s : State) (a : Nat) (h : a < 8), s.status = .running → s.pc ≤ 253 →
    s.mem.read s.pc = .ok (opcodeOf .jmp) → s.mem.read (s.pc + 1) = .ok (BitVec.ofNat 8 a) → s.x[a] = s.pc →
    ∀ n, runFor n s = .next s

/-- R171 (D22): the trace port shows the pc, the window and the registers of every step that fetches its window, and
nothing for one that faults at fetch. -/
def Obligations.TraceShowsTheFetchedWindow : Prop :=
  ∀ s : State, s.status = .running →
    (∀ w, s.fetch = .ok w → s.trace = some ⟨s.pc, w, s.x⟩) ∧ (∀ c, s.fetch = .error c → s.trace = none)

/-! ### The instructions: results, completion, and where each faults -/

/-- R100 (pc kept: D10): HALT completes in every state: HALTED, and nothing else changes. -/
def Obligations.HltHalts : Prop :=
  ∀ s : State, exec .hlt s = .next { s with status := .halted }

/-- R110 (fault: D5): LDI writes the immediate and advances by 3, flags and all else kept; a destination above 7 faults
with that index and changes nothing else. -/
def Obligations.LdiLoadsImmediate : Prop :=
  ∀ (a v : Nat) (s : State),
    (∀ h : a < 8, exec (.ldi a v) s = .next { s with x := s.x.set a v h, pc := s.pc + 3 }) ∧
    (7 < a → exec (.ldi a v) s =
      .next { s with status := .faulted, fault := some ⟨.addressingErrorReg a, s.pc⟩ })

/-- R102, R104 (fault: D5): PRN appends the register's whole value to the output and advances by 2; an index above 7
faults, and nothing is emitted. -/
def Obligations.PrnEmitsRegister : Prop :=
  ∀ (a : Nat) (s : State),
    (∀ h : a < 8, exec (.prn a) s = .next { s with out := s.out ++ [s.x[a]], pc := s.pc + 2 }) ∧
    (7 < a → exec (.prn a) s =
      .next { s with status := .faulted, fault := some ⟨.addressingErrorReg a, s.pc⟩ })

/-- R111 (faults: D5, D7): MUL writes the exact product to register A and advances by 3, the flag kept even for a zero
product; with A = B it squares; register A is checked before register B. -/
def Obligations.MulWritesExactProduct : Prop :=
  ∀ (a b : Nat) (s : State),
    (∀ (ha : a < 8) (hb : b < 8), exec (.mul a b) s =
      .next { s with x := s.x.set a (s.x[a] * s.x[b]) ha, pc := s.pc + 3 }) ∧
    (7 < a → exec (.mul a b) s =
      .next { s with status := .faulted, fault := some ⟨.addressingErrorReg a, s.pc⟩ }) ∧
    (a < 8 → 7 < b → exec (.mul a b) s =
      .next { s with status := .faulted, fault := some ⟨.addressingErrorReg b, s.pc⟩ })

/-- R112 (faults: D5, D7): CMP sets E exactly when the two registers hold the same natural number, clears it otherwise,
advances by 3 and changes nothing outside `fl`; on a fault `fl` is kept. Of `fl` it states bit 0 only (U4, log
entry 4). -/
def Obligations.CmpSetsEqualFlag : Prop :=
  ∀ (a b : Nat) (s : State),
    (∀ (ha : a < 8) (hb : b < 8), ∃ f : Byte, exec (.cmp a b) s = .next { s with fl := f, pc := s.pc + 3 } ∧
      (f.getLsbD 0 = true ↔ s.x[a] = s.x[b])) ∧
    (7 < a → exec (.cmp a b) s =
      .next { s with status := .faulted, fault := some ⟨.addressingErrorReg a, s.pc⟩ }) ∧
    (a < 8 → 7 < b → exec (.cmp a b) s =
      .next { s with status := .faulted, fault := some ⟨.addressingErrorReg b, s.pc⟩ })

/-- R131 (D9; fault: D5): JMP copies the register's whole value to the pc, whatever it is, and changes nothing else. -/
def Obligations.JmpCopiesRegisterToPc : Prop :=
  ∀ (a : Nat) (s : State),
    (∀ h : a < 8, exec (.jmp a) s = .next { s with pc := s.x[a] }) ∧
    (7 < a → exec (.jmp a) s =
      .next { s with status := .faulted, fault := some ⟨.addressingErrorReg a, s.pc⟩ })

/-- R132 (D8; fault: D5): JEQ jumps when E is set; when E is clear it advances by 2 whatever its register byte is. -/
def Obligations.JeqJumpsWhenEqual : Prop :=
  ∀ (a : Nat) (s : State),
    (s.fl.getLsbD 0 = false → exec (.jeq a) s = .next { s with pc := s.pc + 2 }) ∧
    (s.fl.getLsbD 0 = true → ∀ h : a < 8, exec (.jeq a) s = .next { s with pc := s.x[a] }) ∧
    (s.fl.getLsbD 0 = true → 7 < a → exec (.jeq a) s =
      .next { s with status := .faulted, fault := some ⟨.addressingErrorReg a, s.pc⟩ })

/-- R133 (D8; fault: D5): JNE jumps when E is clear; when E is set it advances by 2 whatever its register byte is. -/
def Obligations.JneJumpsWhenNotEqual : Prop :=
  ∀ (a : Nat) (s : State),
    (s.fl.getLsbD 0 = true → exec (.jne a) s = .next { s with pc := s.pc + 2 }) ∧
    (s.fl.getLsbD 0 = false → ∀ h : a < 8, exec (.jne a) s = .next { s with pc := s.x[a] }) ∧
    (s.fl.getLsbD 0 = false → 7 < a → exec (.jne a) s =
      .next { s with status := .faulted, fault := some ⟨.addressingErrorReg a, s.pc⟩ })

/-- R90: the ALU's MULTIPLY is the exact product, 0 with a zero operand, and commutative. -/
def Obligations.AluMultiplyIsExact : Prop :=
  ∀ a b : Nat, alu .multiply a b = .ok (.reg (a * b)) ∧ alu .multiply a 0 = .ok (.reg 0) ∧
    alu .multiply a b = alu .multiply b a

/-- R88, R89, R91, R92: ADD is the exact sum, COMPARE's flag result has bit 0 set exactly on equality, and a selector
outside the closed set is the UnsupportedAluOp fault. How such a selector is named is the model's (log entry 5). -/
def Obligations.AluIsAClosedSet : Prop :=
  ∀ a b n : Nat, alu .add a b = .ok (.reg (a + b)) ∧
    (∃ f : Byte, alu .compare a b = .ok (.flag f) ∧ (f.getLsbD 0 = true ↔ a = b)) ∧
    alu (.other n) a b = .error (.unsupportedAluOp (.other n))

/-- R20, R21, R83 (D3; what a build that wraps would violate): a register inside the file holds exactly what was last
written, the other seven keep theirs, an index above 7 is the addressing error, and a register gets a value above 255
that it did not have only by MULTIPLY into it. -/
def Obligations.RegistersHoldUnboundedValues : Prop :=
  (∀ (s : State) (i v : Nat),
    (i < 8 → ∃ t, s.writeReg i v = .ok t ∧ ∀ j, t.readReg j = if j = i then .ok v else s.readReg j) ∧
    (7 < i → s.readReg i = .error (.addressingErrorReg i) ∧ s.writeReg i v = .error (.addressingErrorReg i))) ∧
  (∀ (i : Instr) (s t : State), i.wellFormed = true → exec i s = .next t → ∀ (r : Nat) (h : r < 8),
    255 < t.x[r] → t.x[r] = s.x[r] ∨ ∃ b, i = .mul r b)

/-! ### Frames and faults over all instructions -/

/-- R22, R26, R28, R31, R86: the frame of every handler. Memory is never written; only the destination register of LDI
and MUL may change; only CMP changes `fl`; only PRN changes `out`; status and fault are kept by every handler that
accesses no register above 7, but for HALT's status. -/
def Obligations.HandlerFrame : Prop :=
  ∀ (i : Instr) (s t : State), exec i s = .next t →
    (∀ a, t.mem.read a = s.mem.read a) ∧
    (∀ (r : Nat) (h : r < 8), destination i ≠ some r → t.x[r] = s.x[r]) ∧
    ((∀ a b, i ≠ .cmp a b) → t.fl = s.fl) ∧
    ((∀ a, i ≠ .prn a) → t.out = s.out) ∧
    (firstBadRegister i s = none → t.fault = s.fault ∧ (i ≠ .hlt → t.status = s.status))

/-- R83, R86, R154, R158 (D5, D7, D8): a handler faults exactly when a register it accesses has an index above 7; the
first such index is recorded with the pc, and every other piece of state is as before. Otherwise it completes with no
fault recorded; and an instruction whose register operands are all in 0..7 accesses no other (R23). -/
def Obligations.HandlersFaultExactlyOnBadRegisters : Prop :=
  ∀ (i : Instr) (s : State),
    (∀ r, firstBadRegister i s = some r → exec i s =
      .next { s with status := .faulted, fault := some ⟨.addressingErrorReg r, s.pc⟩ }) ∧
    (firstBadRegister i s = none → ∃ t, exec i s = .next t ∧ t.fault = s.fault ∧
      t.status = if i = .hlt then .halted else s.status) ∧
    (i.namesRegisters = true → firstBadRegister i s = none)

/-- R28, R187: the flag a COMPARE writes is seen by the very next conditional jump, and JEQ and JNE take opposite paths
on it (R133). -/
def Obligations.CompareDecidesTheNextJump : Prop :=
  ∀ (s : State) (a b c : Nat) (ha : a < 8) (hb : b < 8) (hc : c < 8),
    ∃ t u v, exec (.cmp a b) s = .next t ∧ exec (.jeq c) t = .next u ∧ exec (.jne c) t = .next v ∧
      (s.x[a] = s.x[b] → u.pc = s.x[c] ∧ v.pc = s.pc + 5) ∧
      (s.x[a] ≠ s.x[b] → u.pc = s.pc + 5 ∧ v.pc = s.x[c])

/-- R131, R134 (D9): a JUMP completes on any target; a target in 0..253 is fetched at the next step, and any other faults
there, with the first window address above 255. -/
def Obligations.JumpTargetIsCheckedAtTheNextFetch : Prop :=
  ∀ (s : State) (a : Nat) (h : a < 8), s.status = .running →
    ∃ t, exec (.jmp a) s = .next t ∧
      (s.x[a] ≤ 253 → ∃ w, t.fetch = .ok w ∧ s.mem.read s.x[a] = .ok w.op) ∧
      (253 < s.x[a] → step t =
        .next { t with status := .faulted, fault := some ⟨.addressingErrorMem (max s.x[a] 256), s.x[a]⟩ })

/-! ### Output -/

/-- R103: over every run the output stream grows by exactly the values of the PRINT_REGISTER executions, one for each, in
execution order; and a PRINT_REGISTER right after a LOAD_IMMEDIATE of the same register prints the loaded value. -/
def Obligations.OutputIsWhatPrintRegisterPrintedInOrder : Prop :=
  (∀ n s t, runFor n s = .next t → t.out = s.out ++ printedBy n s) ∧
  (∀ (s : State) (r v : Nat), r < 8 → ∃ t u, exec (.ldi r v) s = .next t ∧ exec (.prn r) t = .next u ∧
    u.out = s.out ++ [v])

/-! ### Invariants and noninterference -/

/-- R30, R33: the reset state meets the invariant, is RUNNING and has no fault record (the record is the spec's D5, log
entry 2). -/
def Obligations.ResetMeetsInv : Prop :=
  State.reset.Inv ∧ State.reset.status = .running ∧ State.reset.fault = none

/-- R30, R92, R151, R152, R156: every step keeps the invariant: the memory stays canonical, the fault record is set
exactly in FAULTED and holds the pc and an info its cause can have (a memory address of 256 or more, a register index
8..255, a byte of no opcode), and UnsupportedAluOp is never recorded. -/
def Obligations.EveryStepKeepsInv : Prop :=
  ∀ s t : State, s.Inv → step s = .next t → t.Inv

/-- R30, R92, R151, R156: every state of every run from every constructed engine, whatever program file it was given,
meets the invariant; and ProgramFileError is recorded only by a run that never takes a step (R157). -/
def Obligations.EveryRunOfEveryFileKeepsInv : Prop :=
  ∀ (file : Option (List (List Char))) (n : Nat) (t : State),
    runFor n (construct file) = .next t →
    t.Inv ∧ (∀ e pc, t.fault = some ⟨.programFileError e, pc⟩ → t = construct file)

/-- R28, U4: bits 7..1 of `fl` are never observed: two engines that differ only there stay so, and agree on everything
else and on E, over runs of any length. -/
def Obligations.UpperFlagBitsAreNeverObserved : Prop :=
  ∀ (n : Nat) (s : State) (f : Byte), f.getLsbD 0 = s.fl.getLsbD 0 →
    ∃ (t : State) (g : Byte), runFor n s = .next t ∧
      runFor n { s with fl := f } = .next { t with fl := g } ∧ g.getLsbD 0 = t.fl.getLsbD 0
end

