-- ==== Sys2Proof/Laws/Decode.lean ====
section
/-! SUPPORT. The dispatch table's lookup (R82): what it finds, and that it finds every opcode of a legal table. -/

namespace Sys2Proof

theorem Mnemonic.mem_all (m : Mnemonic) : m ∈ Mnemonic.all := by cases m <;> simp [Mnemonic.all]

theorem lookupOpcode_some {t : OpcodeTable} {op : Byte} {m : Mnemonic} (h : lookupOpcode t op = some m) : t m = op := by
  simpa using List.find?_some h

theorem lookupOpcode_none {t : OpcodeTable} {op : Byte} : lookupOpcode t op = none ↔ ∀ m, t m ≠ op := by
  simp [lookupOpcode, List.find?_eq_none, Mnemonic.mem_all]

/-- Exactly one mnemonic answers to an opcode byte of a legal table (R63). -/
theorem lookupOpcode_of_legal {t : OpcodeTable} (ht : t.Legal) (m : Mnemonic) : lookupOpcode t (t m) = some m := by
  cases h : lookupOpcode t (t m) with
  | none => exact absurd rfl (lookupOpcode_none.mp h m)
  | some n => rw [ht.2 n m (lookupOpcode_some h)]

theorem decodeWindow_ok {t : OpcodeTable} {w : Window} {i : Instr} (h : decodeWindow t w = .ok i) :
    ∃ m, t m = w.op ∧ i = operandsOf m w.a w.b := by
  unfold decodeWindow at h
  split at h
  · cases h
  · rename_i m hm; cases h; exact ⟨m, lookupOpcode_some hm, rfl⟩

theorem operandsOf_mnemonic (m : Mnemonic) (a b : Byte) : (operandsOf m a b).mnemonic = m := by cases m <;> rfl

theorem operandsOf_wellFormed (m : Mnemonic) (a b : Byte) : (operandsOf m a b).wellFormed = true := by
  have ha := a.isLt
  have hb := b.isLt
  cases m <;> simp_all [operandsOf, Instr.wellFormed, operandFits]

end Sys2Proof
end

