-- ==== Sys2Proof/Laws/State.lean ====
section
/-! SUPPORT. One lemma per field per update of the state, true by rfl, so that no later proof unfolds an update; and
the fields of the state after reset. -/

namespace Sys2Proof.Machine

@[simp] theorem State.advance_mem (s : State) (w : Nat) : (s.advance w).mem = s.mem := rfl
@[simp] theorem State.advance_x (s : State) (w : Nat) : (s.advance w).x = s.x := rfl
@[simp] theorem State.advance_pc (s : State) (w : Nat) : (s.advance w).pc = s.pc + w := rfl
@[simp] theorem State.advance_fl (s : State) (w : Nat) : (s.advance w).fl = s.fl := rfl
@[simp] theorem State.advance_status (s : State) (w : Nat) : (s.advance w).status = s.status := rfl
@[simp] theorem State.advance_fault (s : State) (w : Nat) : (s.advance w).fault = s.fault := rfl
@[simp] theorem State.advance_out (s : State) (w : Nat) : (s.advance w).out = s.out := rfl

@[simp] theorem State.jump_mem (s : State) (v : Nat) : (s.jump v).mem = s.mem := rfl
@[simp] theorem State.jump_x (s : State) (v : Nat) : (s.jump v).x = s.x := rfl
@[simp] theorem State.jump_pc (s : State) (v : Nat) : (s.jump v).pc = v := rfl
@[simp] theorem State.jump_fl (s : State) (v : Nat) : (s.jump v).fl = s.fl := rfl
@[simp] theorem State.jump_status (s : State) (v : Nat) : (s.jump v).status = s.status := rfl
@[simp] theorem State.jump_fault (s : State) (v : Nat) : (s.jump v).fault = s.fault := rfl
@[simp] theorem State.jump_out (s : State) (v : Nat) : (s.jump v).out = s.out := rfl

@[simp] theorem State.emit_mem (s : State) (v : Nat) : (s.emit v).mem = s.mem := rfl
@[simp] theorem State.emit_x (s : State) (v : Nat) : (s.emit v).x = s.x := rfl
@[simp] theorem State.emit_pc (s : State) (v : Nat) : (s.emit v).pc = s.pc := rfl
@[simp] theorem State.emit_fl (s : State) (v : Nat) : (s.emit v).fl = s.fl := rfl
@[simp] theorem State.emit_status (s : State) (v : Nat) : (s.emit v).status = s.status := rfl
@[simp] theorem State.emit_fault (s : State) (v : Nat) : (s.emit v).fault = s.fault := rfl
@[simp] theorem State.emit_out (s : State) (v : Nat) : (s.emit v).out = s.out ++ [v] := rfl

@[simp] theorem State.halt_mem (s : State) : s.halt.mem = s.mem := rfl
@[simp] theorem State.halt_x (s : State) : s.halt.x = s.x := rfl
@[simp] theorem State.halt_pc (s : State) : s.halt.pc = s.pc := rfl
@[simp] theorem State.halt_fl (s : State) : s.halt.fl = s.fl := rfl
@[simp] theorem State.halt_status (s : State) : s.halt.status = .halted := rfl
@[simp] theorem State.halt_fault (s : State) : s.halt.fault = s.fault := rfl
@[simp] theorem State.halt_out (s : State) : s.halt.out = s.out := rfl

@[simp] theorem State.raise_mem (s : State) (c : FaultCause) : (s.raise c).mem = s.mem := rfl
@[simp] theorem State.raise_x (s : State) (c : FaultCause) : (s.raise c).x = s.x := rfl
@[simp] theorem State.raise_pc (s : State) (c : FaultCause) : (s.raise c).pc = s.pc := rfl
@[simp] theorem State.raise_fl (s : State) (c : FaultCause) : (s.raise c).fl = s.fl := rfl
@[simp] theorem State.raise_status (s : State) (c : FaultCause) : (s.raise c).status = .faulted := rfl
@[simp] theorem State.raise_fault (s : State) (c : FaultCause) : (s.raise c).fault = some ⟨c, s.pc⟩ := rfl
@[simp] theorem State.raise_out (s : State) (c : FaultCause) : (s.raise c).out = s.out := rfl

@[simp] theorem State.setFlags_mem (s : State) (f : Byte) : (s.setFlags f).mem = s.mem := rfl
@[simp] theorem State.setFlags_x (s : State) (f : Byte) : (s.setFlags f).x = s.x := rfl
@[simp] theorem State.setFlags_pc (s : State) (f : Byte) : (s.setFlags f).pc = s.pc := rfl
@[simp] theorem State.setFlags_fl (s : State) (f : Byte) : (s.setFlags f).fl = f := rfl
@[simp] theorem State.setFlags_status (s : State) (f : Byte) : (s.setFlags f).status = s.status := rfl
@[simp] theorem State.setFlags_fault (s : State) (f : Byte) : (s.setFlags f).fault = s.fault := rfl
@[simp] theorem State.setFlags_out (s : State) (f : Byte) : (s.setFlags f).out = s.out := rfl

@[simp] theorem State.reset_mem : State.reset.mem = [] := rfl
@[simp] theorem State.reset_pc : State.reset.pc = 0 := rfl
@[simp] theorem State.reset_fl : State.reset.fl = 0#8 := rfl
@[simp] theorem State.reset_status : State.reset.status = .running := rfl
@[simp] theorem State.reset_fault : State.reset.fault = none := rfl
@[simp] theorem State.reset_out : State.reset.out = [] := rfl

@[simp] theorem State.reset_x (i : Nat) (h : i < 8) : State.reset.x[i] = 0 := by
  simp [State.reset]

end Sys2Proof.Machine
end

