-- ==== Sys2Proof/Laws/Ops.lean ====
section
/-! SUPPORT. The memory's laws (reading after a write, the canonical form kept), and what a fetch and the end of a
handler can do. -/

namespace Sys2Proof.Machine

theorem Memory.wf_nil : Memory.wf [] := by simp [Memory.wf]

theorem Memory.wf_tail {c : Host.Cell} {m : Memory} (h : Memory.wf (c :: m)) : m.wf :=
  ⟨(List.pairwise_cons.mp h.1).2, fun d hd => h.2 d (List.mem_cons_of_mem _ hd)⟩

/-- Nothing below the first entry's address, or at it, is listed further on. -/
theorem Memory.lookup_of_forall_lt {m : Memory} {a : Nat} (h : ∀ c ∈ m, a < c.1) : m.lookup a = Memory.unlisted := by
  induction m with
  | nil => rfl
  | cons c m ih =>
    have hc := h c (by simp)
    rw [Memory.lookup, if_neg (by omega)]
    exact ih fun d hd => h d (by simp [hd])

theorem Memory.lookup_head {c : Host.Cell} {m : Memory} : Memory.lookup (c :: m) c.1 = c.2 := by
  simp [Memory.lookup]

theorem Memory.lookup_cons (a : Nat) (v : Byte) (m : Memory) (hm : ∀ c ∈ m, a < c.1) (b : Nat) :
    (Memory.cons a v m).lookup b = if b = a then v else m.lookup b := by
  unfold Memory.cons
  by_cases hv : v = Memory.unlisted
  · by_cases hb : b = a
    · subst hb; simp [hv, Memory.lookup_of_forall_lt hm]
    · simp [hv, hb]
  · by_cases hb : b = a
    · simp [hv, hb, Memory.lookup]
    · simp [hv, hb, Memory.lookup, Ne.symm hb]

theorem Memory.forall_lt_cons {a b : Nat} {v : Byte} {m : Memory} (hb : b < a) (hm : ∀ c ∈ m, b < c.1) :
    ∀ c ∈ Memory.cons a v m, b < c.1 := by
  intro c hc
  unfold Memory.cons at hc
  split at hc
  · exact hm c hc
  · rcases List.mem_cons.mp hc with rfl | hc
    · exact hb
    · exact hm c hc

theorem Memory.wf_cons {a : Nat} {v : Byte} {m : Memory} (ha : a < 256) (hm : ∀ c ∈ m, a < c.1) (h : m.wf) :
    (Memory.cons a v m).wf := by
  unfold Memory.cons
  split
  · exact h
  · rename_i hv
    refine ⟨List.pairwise_cons.mpr ⟨hm, h.1⟩, ?_⟩
    intro c hc
    rcases List.mem_cons.mp hc with rfl | hc
    · exact ⟨ha, hv⟩
    · exact h.2 c hc

/-- A store changes the byte at its own address and no other (R42, R49). -/
theorem Memory.lookup_store {m : Memory} (h : m.wf) (a : Nat) (v : Byte) (b : Nat) :
    (m.store a v).lookup b = if b = a then v else m.lookup b := by
  induction m with
  | nil => exact Memory.lookup_cons a v [] (by simp) b
  | cons c m ih =>
    have hc := (List.pairwise_cons.mp h.1).1
    rw [Memory.store]
    split
    · rename_i hlt
      refine Memory.lookup_cons a v (c :: m) ?_ b
      intro d hd
      rcases List.mem_cons.mp hd with rfl | hd
      · exact hlt
      · exact lt_trans hlt (hc d hd)
    · split
      · rename_i heq
        subst heq
        rw [Memory.lookup_cons c.1 v m hc b]
        by_cases hb : b = c.1
        · simp [hb]
        · simp [hb, Memory.lookup, Ne.symm hb]
      · rename_i hnlt hne
        rw [Memory.lookup, Memory.lookup, ih (Memory.wf_tail h)]
        by_cases hb : c.1 = b
        · have : ¬ b = a := by omega
          simp [hb, this]
        · simp [hb]

theorem Memory.forall_lt_store {m : Memory} {a b : Nat} {v : Byte} (hb : b < a) (hm : ∀ c ∈ m, b < c.1) :
    ∀ c ∈ m.store a v, b < c.1 := by
  induction m with
  | nil => exact Memory.forall_lt_cons hb (by simp)
  | cons c m ih =>
    have hm' : ∀ d ∈ m, b < d.1 := fun d hd => hm d (by simp [hd])
    rw [Memory.store]
    split
    · exact Memory.forall_lt_cons hb hm
    · split
      · exact Memory.forall_lt_cons hb hm'
      · intro d hd
        rcases List.mem_cons.mp hd with rfl | hd
        · exact hm d (by simp)
        · exact ih hm' d hd

/-- A store at one of the 256 addresses keeps the canonical form. -/
theorem Memory.wf_store {m : Memory} (h : m.wf) {a : Nat} (ha : a < 256) (v : Byte) : (m.store a v).wf := by
  induction m with
  | nil => exact Memory.wf_cons ha (by simp) h
  | cons c m ih =>
    have hc := (List.pairwise_cons.mp h.1).1
    have ht := Memory.wf_tail h
    rw [Memory.store]
    split
    · rename_i hlt
      refine Memory.wf_cons ha ?_ h
      intro d hd
      rcases List.mem_cons.mp hd with rfl | hd
      · exact hlt
      · exact lt_trans hlt (hc d hd)
    · split
      · rename_i heq
        subst heq
        exact Memory.wf_cons ha hc ht
      · have hlt : c.1 < a := by omega
        refine ⟨List.pairwise_cons.mpr ⟨Memory.forall_lt_store hlt hc, (ih ht).1⟩, ?_⟩
        intro d hd
        rcases List.mem_cons.mp hd with rfl | hd
        · exact h.2 d (by simp)
        · exact (ih ht).2 d hd

/-- Every write the port accepts keeps the canonical form. -/
theorem Memory.wf_write {m m' : Memory} {a : Nat} {v : Byte} (h : m.wf) (hw : m.write a v = .ok m') : m'.wf := by
  unfold Memory.write at hw
  split at hw
  · cases hw
  · cases hw
    exact Memory.wf_store h (by omega) v

theorem Memory.wf_loadLines {ls : List LineKind} :
    ∀ {n a : Nat} {m m' : Memory}, m.wf → loadLines n a m ls = .ok m' → m'.wf := by
  induction ls with
  | nil => intro n a m m' h hl; cases hl; exact h
  | cons l ls ih =>
    intro n a m m' h hl
    cases l with
    | skip => exact ih h hl
    | malformed => cases hl
    | byte v =>
      rw [loadLines] at hl
      split at hl
      · rename_i m1 hw; exact ih (Memory.wf_write h hw) hl
      · cases hl

theorem State.reset_mem_wf : State.reset.mem.wf := Memory.wf_nil

theorem Memory.read_of_le {m : Memory} {a : Nat} (h : a ≤ 255) : m.read a = .ok (m.lookup a) := by
  rw [Memory.read, if_neg (by omega)]

theorem Memory.read_of_gt {m : Memory} {a : Nat} (h : 255 < a) : m.read a = .error (.addressingErrorMem a) := by
  rw [Memory.read, if_pos h]

/-- Everything a fetch can do (R81, R153): the three bytes where the whole window is in memory, else the first window
address above 255. -/
theorem State.fetch_eq (s : State) :
    s.fetch = if s.pc ≤ 253 then .ok ⟨s.mem.lookup s.pc, s.mem.lookup (s.pc + 1), s.mem.lookup (s.pc + 2)⟩
      else .error (.addressingErrorMem (max s.pc 256)) := by
  by_cases h : s.pc ≤ 253
  · simp only [h, if_true, State.fetch, Memory.read_of_le (show s.pc ≤ 255 by omega),
      Memory.read_of_le (show s.pc + 1 ≤ 255 by omega), Memory.read_of_le (show s.pc + 2 ≤ 255 by omega)]
    rfl
  · rw [if_neg h, State.fetch]
    by_cases h0 : s.pc ≤ 255
    · rw [Memory.read_of_le h0]
      by_cases h1 : s.pc + 1 ≤ 255
      · rw [Memory.read_of_le h1, Memory.read_of_gt (show 255 < s.pc + 2 by omega),
          show max s.pc 256 = s.pc + 2 by omega]
        rfl
      · rw [Memory.read_of_gt (show 255 < s.pc + 1 by omega), show max s.pc 256 = s.pc + 1 by omega]
        rfl
    · rw [Memory.read_of_gt (show 255 < s.pc by omega), show max s.pc 256 = s.pc by omega]
      rfl

@[simp] theorem settle_ok (s t : State) : settle s (.ok t) = .next t := rfl

@[simp] theorem settle_error (s : State) (c : FaultCause) : settle s (.error c) = .next (s.raise c) := rfl

/-- A handler always ends in a next state: its writes, or the fault alone (R86). -/
theorem settle_next (s : State) (r : Except FaultCause State) :
    (∃ t, r = .ok t ∧ settle s r = .next t) ∨ ∃ c, r = .error c ∧ settle s r = .next (s.raise c) := by
  cases r with
  | ok t => exact .inl ⟨t, rfl, rfl⟩
  | error c => exact .inr ⟨c, rfl, rfl⟩

end Sys2Proof.Machine
end

