-- ==== Sys2Proof/Laws/Operands.lean ====
section
/-! SUPPORT. What each operand form and the shared bodies of the handlers can do: the index check, a register read and
write, the RR body over the ALU, and the jump. -/

namespace Sys2Proof.Machine

theorem checkReg_of_lt {i : Nat} (h : i < 8) : checkReg i = .ok ⟨i, h⟩ := by simp [checkReg, h]

theorem checkReg_of_ge {i : Nat} (h : 8 ≤ i) : checkReg i = .error (.addressingErrorReg i) := by
  simp [checkReg, Nat.not_lt.mpr h]

/-- A register read inside the file (R83). -/
theorem State.readReg_of_lt (s : State) {i : Nat} (h : i < 8) : s.readReg i = .ok s.x[i] := by
  rw [State.readReg, checkReg_of_lt h]; rfl

/-- A register read outside the file (R83). -/
theorem State.readReg_of_ge (s : State) {i : Nat} (h : 8 ≤ i) : s.readReg i = .error (.addressingErrorReg i) := by
  rw [State.readReg, checkReg_of_ge h]; rfl

/-- A register write inside the file stores its value exactly (R21, R83). -/
theorem State.writeReg_of_lt (s : State) {i : Nat} (h : i < 8) (v : Nat) :
    s.writeReg i v = .ok { s with x := s.x.set i v } := by
  rw [State.writeReg, checkReg_of_lt h]; rfl

/-- A register write outside the file (R83). -/
theorem State.writeReg_of_ge (s : State) {i : Nat} (h : 8 ≤ i) (v : Nat) :
    s.writeReg i v = .error (.addressingErrorReg i) := by
  rw [State.writeReg, checkReg_of_ge h]; rfl

/-- The RR body with both registers in the file (R111, R112). -/
theorem State.aluRR_of_lt (s : State) (op : AluOp) {a b : Nat} (ha : a < 8) (hb : b < 8) :
    s.aluRR op a b = (alu op s.x[a] s.x[b]).bind (s.applyAlu a) := by
  rw [State.aluRR, State.readReg_of_lt s ha, State.readReg_of_lt s hb]; rfl

/-- Register A is checked first (R158, D7). -/
theorem State.aluRR_of_ge_left (s : State) (op : AluOp) {a : Nat} (b : Nat) (ha : 8 ≤ a) :
    s.aluRR op a b = .error (.addressingErrorReg a) := by
  rw [State.aluRR, State.readReg_of_ge s ha]; rfl

/-- Then register B (R158, D7). -/
theorem State.aluRR_of_ge_right (s : State) (op : AluOp) {a b : Nat} (ha : a < 8) (hb : 8 ≤ b) :
    s.aluRR op a b = .error (.addressingErrorReg b) := by
  rw [State.aluRR, State.readReg_of_lt s ha, State.readReg_of_ge s hb]; rfl

theorem State.jumpToReg_of_lt (s : State) {a : Nat} (h : a < 8) : s.jumpToReg a = .ok (s.jump s.x[a]) := by
  rw [State.jumpToReg, State.readReg_of_lt s h]; rfl

theorem State.jumpToReg_of_ge (s : State) {a : Nat} (h : 8 ≤ a) :
    s.jumpToReg a = .error (.addressingErrorReg a) := by
  rw [State.jumpToReg, State.readReg_of_ge s h]; rfl

/-- The flag of a comparison, read through its one defined bit (R91). -/
theorem equalFlag_setFlags_compareFlags (s : State) (a b : Nat) :
    (s.setFlags (compareFlags a b)).equalFlag = decide (a = b) := by
  unfold State.equalFlag compareFlags
  by_cases h : a = b <;> simp [h]

end Sys2Proof.Machine
end

