-- ==== Sys2Proof/Laws/PerInstr.lean ====
section
/-! SUPPORT. Statements about instructions as syntax, one lemma per constructor. -/

namespace Sys2Proof.Laws.EncodingWidth

/-- R60, R68: under every opcode table an instruction's encoding starts with its row's byte and is exactly as long as
its row's width, 1, 2 or 3 bytes. -/
def Statement (i : Instr) : Prop :=
  ∀ t : OpcodeTable, (encode t i).head? = some (t i.mnemonic) ∧ (encode t i).length = i.width ∧ 1 ≤ i.width ∧ i.width ≤ 3

theorem hlt : Statement .hlt := fun _ => ⟨rfl, rfl, by decide, by decide⟩
theorem ldi (ra imm : Nat) : Statement (.ldi ra imm) :=
  fun _ => ⟨rfl, rfl, by simp [Instr.width, Instr.mnemonic, Mnemonic.width], by simp [Instr.width, Instr.mnemonic, Mnemonic.width]⟩
theorem prn (ra : Nat) : Statement (.prn ra) :=
  fun _ => ⟨rfl, rfl, by simp [Instr.width, Instr.mnemonic, Mnemonic.width], by simp [Instr.width, Instr.mnemonic, Mnemonic.width]⟩
theorem mul (ra rb : Nat) : Statement (.mul ra rb) :=
  fun _ => ⟨rfl, rfl, by simp [Instr.width, Instr.mnemonic, Mnemonic.width], by simp [Instr.width, Instr.mnemonic, Mnemonic.width]⟩
theorem cmp (ra rb : Nat) : Statement (.cmp ra rb) :=
  fun _ => ⟨rfl, rfl, by simp [Instr.width, Instr.mnemonic, Mnemonic.width], by simp [Instr.width, Instr.mnemonic, Mnemonic.width]⟩
theorem jmp (ra : Nat) : Statement (.jmp ra) :=
  fun _ => ⟨rfl, rfl, by simp [Instr.width, Instr.mnemonic, Mnemonic.width], by simp [Instr.width, Instr.mnemonic, Mnemonic.width]⟩
theorem jeq (ra : Nat) : Statement (.jeq ra) :=
  fun _ => ⟨rfl, rfl, by simp [Instr.width, Instr.mnemonic, Mnemonic.width], by simp [Instr.width, Instr.mnemonic, Mnemonic.width]⟩
theorem jne (ra : Nat) : Statement (.jne ra) :=
  fun _ => ⟨rfl, rfl, by simp [Instr.width, Instr.mnemonic, Mnemonic.width], by simp [Instr.width, Instr.mnemonic, Mnemonic.width]⟩

end Sys2Proof.Laws.EncodingWidth
end

