-- ==== Sys2Proof/Laws/Step.lean ====
section
/-! SUPPORT. What a step can do, said once: nothing in a terminal state, a fetch fault, a decode fault, or the decoded
instruction's handler. -/

namespace Sys2Proof.Machine

/-- Every handler ends in a next state. -/
theorem exec_next (i : Instr) (s : State) : ∃ t, exec i s = .next t := by
  have hs : ∀ r : Except FaultCause State, ∃ t, settle s r = .next t := by
    intro r; cases r <;> exact ⟨_, rfl⟩
  cases i with
  | hlt => exact ⟨_, rfl⟩
  | ldi ra imm => exact hs _
  | prn ra => exact hs _
  | mul ra rb => exact hs _
  | cmp ra rb => exact hs _
  | jmp ra => exact hs _
  | jeq ra => exact hs _
  | jne ra => exact hs _

/-- Every step has a next state. -/
theorem step_next (s : State) : ∃ t, step s = .next t := by
  unfold step engineStep runningStep dispatchWindow
  split
  · split
    · split
      · exact exec_next _ _
      · exact ⟨_, rfl⟩
    · exact ⟨_, rfl⟩
  · exact ⟨s, rfl⟩
  · exact ⟨s, rfl⟩

theorem runFor_succ {s t : State} (h : step s = .next t) (n : Nat) : runFor (n + 1) s = runFor n t := by
  rw [runFor, h]

theorem hostRun_succ (M : Host.Core) (n : Nat) (s t : M.State) (h : M.step s = .next t) :
    M.run (n + 1) s = M.run n t := by
  simp only [Host.Core.run, h]

/-- The model's `runFor` is the host's `run` of this machine. -/
theorem core_run_eq (n : Nat) (s : State) : Host.Core.run Sys2Proof.core n s = runFor n s := by
  induction n generalizing s with
  | zero => rfl
  | succ n ih =>
    obtain ⟨t, ht⟩ := step_next s
    rw [runFor_succ ht, ← ih t]
    exact hostRun_succ Sys2Proof.core n s t ht

/-- Every case of an engine step, under any opcode table (R80, R81, R82). -/
theorem engineStep_cases (t : OpcodeTable) (s : State) :
    (s.status ≠ .running ∧ engineStep t s = .next s) ∨
    (s.status = .running ∧ 253 < s.pc ∧
      engineStep t s = .next (s.raise (.addressingErrorMem (max s.pc 256)))) ∨
    (s.status = .running ∧ s.pc ≤ 253 ∧ (∀ m, t m ≠ s.mem.lookup s.pc) ∧
      engineStep t s = .next (s.raise (.decodeError (s.mem.lookup s.pc)))) ∨
    (s.status = .running ∧ s.pc ≤ 253 ∧ ∃ m, t m = s.mem.lookup s.pc ∧
      lookupOpcode t (s.mem.lookup s.pc) = some m ∧
      engineStep t s = exec (operandsOf m (s.mem.lookup (s.pc + 1)) (s.mem.lookup (s.pc + 2))) s) := by
  unfold engineStep
  cases hst : s.status with
  | halted => exact .inl ⟨by simp, rfl⟩
  | faulted => exact .inl ⟨by simp, rfl⟩
  | running =>
    right
    simp only [runningStep, State.fetch_eq]
    by_cases hpc : s.pc ≤ 253
    · right
      simp only [hpc, if_true, dispatchWindow, decodeWindow]
      cases hm : lookupOpcode t (s.mem.lookup s.pc) with
      | none => exact .inl ⟨trivial, trivial, lookupOpcode_none.mp hm, rfl⟩
      | some m => exact .inr ⟨trivial, trivial, m, lookupOpcode_some hm, rfl, rfl⟩
    · left
      simp only [hpc, if_false]
      exact ⟨trivial, by omega, trivial⟩

/-- What a placed window reads as. -/
theorem Memory.lookup_placeWindow {m : Memory} (h : m.wf) {a : Nat} (ha : a + 2 ≤ 255) (w : Window) :
    (m.placeWindow a w).lookup a = w.op ∧ (m.placeWindow a w).lookup (a + 1) = w.a ∧
      (m.placeWindow a w).lookup (a + 2) = w.b := by
  have h1 := Memory.wf_store h (show a < 256 by omega) w.op
  have h2 := Memory.wf_store h1 (show a + 1 < 256 by omega) w.a
  simp [Memory.placeWindow, Memory.lookup_store h2, Memory.lookup_store h1, Memory.lookup_store h]

/-- Placing a window keeps the canonical form. -/
theorem Memory.wf_placeWindow {m : Memory} (h : m.wf) {a : Nat} (ha : a + 2 ≤ 255) (w : Window) :
    (m.placeWindow a w).wf :=
  Memory.wf_store (Memory.wf_store (Memory.wf_store h (by omega) _) (by omega) _) (by omega) _

/-- The step after `withFetchWord` runs exactly the instruction the word decodes to. -/
theorem step_withFetchWord {s : State} (h : s.mem.wf) (nbits w : Nat) {i : Instr}
    (hd : decodeTableWord nbits w = some i) :
    step (s.withFetchWord nbits w) = exec i (s.withFetchWord nbits w) := by
  have hw : decodeWindow opcodeOf (windowOfWord nbits w) = .ok i := by
    unfold decodeTableWord at hd
    split at hd
    · rename_i j hj; cases hd; exact hj
    · cases hd
  have hb : (if s.pc + 2 > 255 then Config.resetPc else s.pc) + 2 ≤ 255 := by
    simp only [Config.resetPc]; split <;> omega
  have hl := Memory.lookup_placeWindow h hb (windowOfWord nbits w)
  have hpc : (s.withFetchWord nbits w).pc ≤ 253 := Nat.le_of_add_le_add_right hb
  have h0 : (s.withFetchWord nbits w).mem.lookup (s.withFetchWord nbits w).pc = (windowOfWord nbits w).op := hl.1
  have h1 : (s.withFetchWord nbits w).mem.lookup ((s.withFetchWord nbits w).pc + 1) = (windowOfWord nbits w).a :=
    hl.2.1
  have h2 : (s.withFetchWord nbits w).mem.lookup ((s.withFetchWord nbits w).pc + 2) = (windowOfWord nbits w).b :=
    hl.2.2
  have hf : (s.withFetchWord nbits w).fetch = .ok (windowOfWord nbits w) := by
    rw [State.fetch_eq, if_pos hpc, h0, h1, h2]
  have hr : (s.withFetchWord nbits w).status = .running := rfl
  rw [step, engineStep, hr]
  simp only [runningStep, hf, dispatchWindow, hw]

end Sys2Proof.Machine
end

