-- ==== Sys2Proof/Machine/Assembler.lean ====
section
/-! DEFINITION. The assembly syntax of R69 read to an instruction: the source's names or the mnemonics of R63, then the
operands in the source's order (D31). It is text outside the core; no handler uses it. There are no pseudo-instructions,
labels or directives (R71). -/

namespace Sys2Proof.Machine

/-- The short name of a row (R11, R63). -/
def shortName : Mnemonic → String
  | .hlt => "HLT"
  | .ldi => "LDI"
  | .prn => "PRN"
  | .mul => "MUL"
  | .cmp => "CMP"
  | .jmp => "JMP"
  | .jeq => "JEQ"
  | .jne => "JNE"

/-- The row a name stands for, by either of its names (R69). -/
def mnemonicOfName (w : List Char) : Option Mnemonic :=
  Mnemonic.all.find? fun m => w == m.name.toList || w == (shortName m).toList

/-- The value of a digit in bases up to 16. -/
def digitValue (c : Char) : Option Nat :=
  if '0' ≤ c ∧ c ≤ '9' then some (c.toNat - '0'.toNat)
  else if 'a' ≤ c ∧ c ≤ 'f' then some (c.toNat - 'a'.toNat + 10)
  else if 'A' ≤ c ∧ c ≤ 'F' then some (c.toNat - 'A'.toNat + 10)
  else none

/-- A nonempty digit string in a base. -/
def numberIn (base : Nat) (ds : List Char) : Option Nat :=
  if ds.isEmpty then none
  else ds.foldl (fun acc c => do
    let n ← acc
    let d ← digitValue c
    if d < base then some (base * n + d) else none) (some 0)

/-- An immediate: decimal, or `0b` or `0x` (R69, D31), at most 255 (R65). -/
def parseImmediate (cs : List Char) : Option Nat :=
  let v := match cs with
    | '0' :: 'b' :: ds => numberIn 2 ds
    | '0' :: 'x' :: ds => numberIn 16 ds
    | ds => numberIn 10 ds
  v.filter fun n => decide (n ≤ 255)

/-- A register `r0`..`r7` (R69). -/
def parseRegister (cs : List Char) : Option Nat :=
  match cs with
  | ['r', d] => (digitValue d).filter fun n => decide (n < Config.numRegs)
  | _ => none

/-- The parts of a text between commas. -/
def splitCommas : List Char → List (List Char)
  | [] => [[]]
  | c :: cs =>
    if c = ',' then [] :: splitCommas cs
    else match splitCommas cs with
      | [] => [[c]]
      | p :: ps => (c :: p) :: ps

/-- The operands a row's format asks for, in the source's order (R61, R69). -/
def parseOperands (m : Mnemonic) (ops : List (List Char)) : Option Instr :=
  match m, ops with
  | .hlt, [] => some .hlt
  | .ldi, [a, v] => do return .ldi (← parseRegister a) (← parseImmediate v)
  | .prn, [a] => do return .prn (← parseRegister a)
  | .mul, [a, b] => do return .mul (← parseRegister a) (← parseRegister b)
  | .cmp, [a, b] => do return .cmp (← parseRegister a) (← parseRegister b)
  | .jmp, [a] => do return .jmp (← parseRegister a)
  | .jeq, [a] => do return .jeq (← parseRegister a)
  | .jne, [a] => do return .jne (← parseRegister a)
  | _, _ => none

/-- One instruction from its text (R69); blanks around the name and the operands do not matter (log entry 9). -/
def parseAssembly (line : List Char) : Option Instr :=
  let l := trimBlanks line
  let rest := trimBlanks (l.dropWhile fun c => !c.isWhitespace)
  match mnemonicOfName (l.takeWhile fun c => !c.isWhitespace) with
  | some m => parseOperands m (if rest.isEmpty then [] else (splitCommas rest).map trimBlanks)
  | none => none

end Sys2Proof.Machine
end

