-- ==== Sys2Proof/Tests/Slice0.lean ====
section
/-! SUPPORT. Tests of the model against the spec's own words, tables and vectors (95_test_vectors.md: its ids W, E, H, O,
L, M, C, J, D are named at each test), the smoke test of WellFormed, and for every statement with hypotheses a
witness that meets them. -/

namespace Sys2Proof.Tests

open Sys2Proof Sys2Proof.Machine

/-- The next state of an outcome. -/
def nextOf (r : Result) : Option State :=
  match r with
  | .next t => some t
  | .fault _ => none
  | .refused _ => none

/-- A RUNNING state at `pc` whose window there holds `op`, `a`, `b`, with the given registers and flag. -/
def at3 (pc : Nat) (op a b : Byte) (x : Vector Nat 8) (fl : Byte) : State :=
  { State.reset with pc := pc, mem := Memory.placeWindow [] pc ⟨op, a, b⟩, x := x, fl := fl }

/-- Registers all zero. -/
def zeros : Vector Nat 8 := #v[0, 0, 0, 0, 0, 0, 0, 0]

/-! ### WellFormed: each check refuses an ill-formed term -/

theorem test_wf_ldi_register : (Instr.ldi 256 0).wellFormed = false := by decide
theorem test_wf_ldi_immediate : (Instr.ldi 0 256).wellFormed = false := by decide
theorem test_wf_prn : (Instr.prn 256).wellFormed = false := by decide
theorem test_wf_mul_a : (Instr.mul 256 0).wellFormed = false := by decide
theorem test_wf_mul_b : (Instr.mul 0 256).wellFormed = false := by decide
theorem test_wf_cmp_a : (Instr.cmp 256 0).wellFormed = false := by decide
theorem test_wf_cmp_b : (Instr.cmp 0 256).wellFormed = false := by decide
theorem test_wf_jmp : (Instr.jmp 256).wellFormed = false := by decide
theorem test_wf_jeq : (Instr.jeq 256).wellFormed = false := by decide
theorem test_wf_jne : (Instr.jne 256).wellFormed = false := by decide
theorem test_wf_accepts : (Instr.mul 255 255).wellFormed = true := by decide
theorem test_namesRegisters_refuses : (Instr.mul 7 8).namesRegisters = false := by decide

/-! ### Decoding: words from R61 and R63 -/

theorem test_decode_hlt : decodeTableWord 8 0b00000001 = some .hlt := by decide
theorem test_decode_ldi : decodeTableWord 24 0b11111111_00000111_10000010 = some (.ldi 7 255) := by decide
theorem test_decode_prn : decodeTableWord 16 0b00000011_01000111 = some (.prn 3) := by decide
theorem test_decode_mul : decodeTableWord 24 0b00000001_00000000_10100010 = some (.mul 0 1) := by decide
theorem test_decode_cmp : decodeTableWord 24 0b00000101_00000100_10100111 = some (.cmp 4 5) := by decide
theorem test_decode_jmp : decodeTableWord 16 0b00000010_01010100 = some (.jmp 2) := by decide
theorem test_decode_jeq : decodeTableWord 16 0b00001001_01010101 = some (.jeq 9) := by decide
theorem test_decode_jne : decodeTableWord 16 0b00001001_01010110 = some (.jne 9) := by decide
/-- R72: a byte whose fields look right is still illegal (E11). -/
theorem test_decode_illegal : decodeTableWord 24 0b10000000 = none := by decide
theorem test_decode_short : decodeBytes opcodeOf [0x01#8, 0#8] = .error .shortWindow := by decide
theorem test_encode_ldi : encode opcodeOf (.ldi 0 8) = [0x82#8, 0x00#8, 0x08#8] := by decide
/-- R69: the source's own text. -/
theorem test_text : (Instr.mul 0 1).text = "MULTIPLY r0,r1" := by decide

/-- R69: both spellings the spec shows. -/
theorem test_assembly : ["LOAD_IMMEDIATE r0,8", "LDI r0, 0x08", "MUL r0, r1", "HLT", "ADD r0,r1", "PRN r8"].map
    (fun l => parseAssembly l.toList) =
    [some (.ldi 0 8), some (.ldi 0 8), some (.mul 0 1), some .hlt, none, none] := by decide

/-! ### One step, from the vectors of 95_test_vectors.md -/

/-- H1: HALT changes the status alone; the bytes after it are ignored. -/
theorem test_hlt : nextOf (step (at3 0 0x01#8 0x47#8 0#8 #v[1, 2, 3, 4, 5, 6, 7, 8] 1#8)) =
    some { at3 0 0x01#8 0x47#8 0#8 #v[1, 2, 3, 4, 5, 6, 7, 8] 1#8 with status := .halted } := by decide

/-- E6: HALT at 253 is the last that runs. -/
theorem test_hlt_at_253 : (nextOf (step (at3 253 0x01#8 9#8 9#8 zeros 0#8))).map (fun t => (t.status, t.pc)) =
    some (.halted, 253) := by decide

/-- L2. -/
theorem test_ldi : (nextOf (step (State.reset.withFetchWord 24 0xFF0782))).map (fun t => (t.x, t.pc, t.fl)) =
    some (#v[0, 0, 0, 0, 0, 0, 0, 255], 3, 0#8) := by decide

/-- L4. -/
theorem test_ldi_fault : (nextOf (step (at3 9 0x82#8 8#8 5#8 zeros 0#8))).map (fun t => (t.fault, t.x, t.pc)) =
    some (some ⟨.addressingErrorReg 8, 9⟩, zeros, 9) := by decide

/-- O3: no truncation at the output port. -/
theorem test_prn : (nextOf (step (at3 0 0x47#8 0#8 0#8 #v[65025, 0, 0, 0, 0, 0, 0, 0] 0#8))).map (fun t => (t.out, t.pc)) =
    some ([65025], 2) := by decide

/-- O5. -/
theorem test_prn_fault : (nextOf (step (at3 4 0x47#8 0xFF#8 0#8 zeros 0#8))).map (fun t => (t.fault, t.out)) =
    some (some ⟨.addressingErrorReg 255, 4⟩, []) := by decide

/-- R95: the worked step. -/
theorem test_mul : (nextOf (step (at3 6 0xA2#8 0#8 1#8 #v[8, 9, 0, 0, 0, 0, 0, 0] 1#8))).map (fun t => (t.x, t.pc, t.fl)) =
    some (#v[72, 9, 0, 0, 0, 0, 0, 0], 9, 1#8) := by decide

/-- M2: the square of 255 is not wrapped. -/
theorem test_mul_square : (nextOf (step (at3 0 0xA2#8 0#8 0#8 #v[255, 0, 0, 0, 0, 0, 0, 0] 0#8))).map (fun t => t.x[0]) =
    some 65025 := by decide

/-- M7: register A is checked first. -/
theorem test_mul_order : (nextOf (step (at3 0 0xA2#8 10#8 9#8 zeros 0#8))).map (fun t => t.fault) =
    some (some ⟨.addressingErrorReg 10, 0⟩) := by decide

/-- C1: the pair (0,0) is equal. -/
theorem test_cmp_equal : (nextOf (step (at3 0 0xA7#8 0#8 1#8 zeros 0#8))).map (fun t => (t.fl, t.pc)) =
    some (1#8, 3) := by decide

/-- C3: 256 and 0 differ, and the old flag is overwritten (C5). -/
theorem test_cmp_exact : (nextOf (step (at3 0 0xA7#8 0#8 1#8 #v[256, 0, 0, 0, 0, 0, 0, 0] 1#8))).map (fun t => t.fl) =
    some 0#8 := by decide

/-- J3: the target is copied whole. -/
theorem test_jmp : (nextOf (step (at3 0 0x54#8 0#8 0#8 #v[65025, 0, 0, 0, 0, 0, 0, 0] 0#8))).map (fun t => (t.pc, t.status)) =
    some (65025, .running) := by decide

/-- J4. -/
theorem test_jmp_fault : (nextOf (step (at3 5 0x54#8 8#8 0#8 zeros 0#8))).map (fun t => t.fault) =
    some (some ⟨.addressingErrorReg 8, 5⟩) := by decide

/-- D1. -/
theorem test_jeq_taken : (nextOf (step (at3 12 0x55#8 2#8 0#8 #v[0, 0, 17, 0, 0, 0, 0, 0] 1#8))).map (fun t => t.pc) =
    some 17 := by decide

/-- D3: not taken, so the index 9 is not checked. -/
theorem test_jeq_not_taken : (nextOf (step (at3 12 0x55#8 9#8 0#8 zeros 0#8))).map (fun t => (t.pc, t.fault)) =
    some (14, none) := by decide

/-- D5. -/
theorem test_jne_taken : (nextOf (step (at3 20 0x56#8 3#8 0#8 #v[0, 0, 0, 12, 0, 0, 0, 0] 0#8))).map (fun t => t.pc) =
    some 12 := by decide

/-- D8. -/
theorem test_jne_fault : (nextOf (step (at3 20 0x56#8 9#8 0#8 zeros 0#8))).map (fun t => t.fault) =
    some (some ⟨.addressingErrorReg 9, 20⟩) := by decide

/-- E2: 0xA0 is illegal. -/
theorem test_decode_error : (nextOf (step (at3 0 0xA0#8 0#8 1#8 zeros 0#8))).map (fun t => (t.status, t.fault)) =
    some (.faulted, some ⟨.decodeError 0xA0#8, 0⟩) := by decide

/-- E5: the window at 254 reaches 256. -/
theorem test_fetch_fault : (nextOf (step { State.reset with pc := 254, mem := [(254, 0x47#8)] })).map (fun t => t.fault) =
    some (some ⟨.addressingErrorMem 256, 254⟩) := by decide

/-- W8: line 2 holds the digit 2. -/
theorem test_load_malformed : (construct (some ["10000010".toList, "00000002".toList])).fault =
    some ⟨.programFileError (.line 2), 0⟩ := by decide

/-- R182.4: trimming does not reach a blank between digits. -/
theorem test_load_inner_blank : lineKind "1000 0010".toList = .malformed := by decide

/-- R70, W10: comments and blank lines are ignored. -/
theorem test_load : (construct (some ["10000010 # LDI r0, 8".toList, "".toList, "# c".toList, "00000000".toList,
    " 00001000 ".toList])).mem = [(0, 0x82#8), (2, 8#8)] := by decide

/-- W12: the trace tuple before step 3 of P1. -/
theorem test_trace : (at3 6 0xA2#8 0#8 1#8 #v[8, 9, 0, 0, 0, 0, 0, 0] 0#8).trace =
    some ⟨6, ⟨0xA2#8, 0#8, 1#8⟩, #v[8, 9, 0, 0, 0, 0, 0, 0]⟩ := by decide

/-- R151: the numeric codes. -/
theorem test_codes : [FaultCause.addressingErrorMem 256, .addressingErrorReg 8, .decodeError 0#8,
    .unsupportedAluOp (.other 3), .programFileError .missingFile].map FaultCause.code = [1, 2, 3, 4, 5] := by decide

/-! ### Witnesses: the hypotheses of each statement can be met -/

/-- A legal table that is not the default one. -/
def otherTable : OpcodeTable
  | .hlt => 1#8
  | .ldi => 2#8
  | .prn => 3#8
  | .mul => 4#8
  | .cmp => 5#8
  | .jmp => 6#8
  | .jeq => 7#8
  | .jne => 8#8

theorem otherTable_legal : otherTable.Legal := by
  refine ⟨rfl, ?_⟩
  intro m n
  cases m <;> cases n <;> decide

theorem witness_ResetRegistersReadZero : (0 : Nat) < 8 ∧ (7 : Nat) < 8 := by decide

theorem witness_LoadedFileGivesInitialState :
    lineKind "10000010".toList ≠ .malformed ∧ imageBytes ["10000010".toList, "# c".toList] = [0x82#8] ∧
    (List.replicate 256 0x01#8).length ≤ 256 ∧ (255 : Nat) < 256 :=
  ⟨by decide, by decide, le_of_eq List.length_replicate, by decide⟩

/-- A malformed line; a file whose 257 bytes stand between a comment and a blank line; an image of 257 bytes. -/
theorem witness_LoadFailureFaultsBeforeAnyStep :
    lineKind "00000002".toList = .malformed ∧
    ((∀ l ∈ ['#'] :: [] :: List.replicate 257 ['1'], lineKind l ≠ .malformed) ∧
      256 < (imageBytes (['#'] :: [] :: List.replicate 257 ['1'])).length) ∧
    256 < (List.replicate 257 0x01#8).length := by
  have h : (fun l => (lineKind l).toByte) ['1'] = some 1#8 := by decide
  refine ⟨by decide, ⟨?_, ?_⟩, by rw [List.length_replicate]; decide⟩
  · intro l hl
    rcases List.mem_cons.mp hl with rfl | hl
    · decide
    · rcases List.mem_cons.mp hl with rfl | hl
      · decide
      · rw [List.eq_of_mem_replicate hl]; decide
  · have hc : (lineKind ['#']).toByte = none := by decide
    have hb : (lineKind []).toByte = none := by decide
    simp only [imageBytes, List.filterMap_cons, hc, hb]
    rw [List.filterMap_replicate_of_some (f := fun l => (lineKind l).toByte) h, List.length_replicate]
    decide

/-- The last clause at its boundaries: the values 255 and 256, a digit 2, and a blank between digits. -/
theorem witness_LoaderLineAcceptance :
    '#' ∉ ['1', '0'] ∧ (∀ c ∈ [' '] ++ ['\t'], c.isWhitespace = true) ∧
    ('#' ∉ ['1', ' ', '0'] ∧ (∀ c, ['1', ' ', '0'].head? = some c → c.isWhitespace = false) ∧
      (∀ c, ['1', ' ', '0'].getLast? = some c → c.isWhitespace = false) ∧
      ¬ ∀ c ∈ ['1', ' ', '0'], c = '0' ∨ c = '1') ∧
    (∀ c ∈ ['1', '0'], c = '0' ∨ c = '1') ∧
    binaryValue (List.replicate 8 '1') = 255 ∧ binaryValue ('1' :: List.replicate 8 '0') = 256 ∧
    ¬ ∀ c ∈ ['2'], c = '0' ∨ c = '1' := by
  refine ⟨by simp, by simp [Char.isWhitespace], ⟨by simp, by simp [Char.isWhitespace], by simp [Char.isWhitespace],
    by simp⟩, by simp, by decide, by decide, by simp⟩

theorem witness_MemoryPortsCheckTheirAddress :
    Memory.wf [(0, 0x82#8), (255, 9#8)] ∧ (255 : Nat) < 256 ∧ (255 : Nat) ≤ 255 ∧
    ({ State.reset with pc := 254 } : State).fetch = .error (.addressingErrorMem 256) := by
  refine ⟨by decide, by decide, by decide, rfl⟩

theorem witness_MemoryIsItsCells : Memory.wf [(0, 0x82#8), (255, 9#8)] ∧
    Memory.wf (Memory.store [(0, 0x82#8)] 255 9#8) ∧
    ∀ a, a < 256 → Memory.read [(0, 0x82#8), (255, 9#8)] a = Memory.read (Memory.store [(0, 0x82#8)] 255 9#8) a := by
  exact ⟨by decide, by decide, fun _ _ => rfl⟩

theorem witness_MemoryIsConstantDuringARun :
    ∃ t, runFor 1 (at3 6 0xA2#8 0#8 1#8 zeros 0#8) = .next t := ⟨_, rfl⟩

theorem witness_DecodeOfEncodeIsTheInstruction : otherTable.Legal ∧ (Instr.ldi 255 255).wellFormed = true :=
  ⟨otherTable_legal, by decide⟩

theorem witness_EncodeOfDecodeIsTheWindow : decodeWindow otherTable ⟨3#8, 255#8, 7#8⟩ = .ok (.prn 255) := by decide

theorem witness_BytesBeyondTheWidthAreIgnored : decodeWindow opcodeOf ⟨0x47#8, 3#8, 0#8⟩ = .ok (.prn 3) ∧
    (Window.bytes ⟨0x47#8, 3#8, 9#8⟩).take (Instr.prn 3).width =
      (Window.bytes ⟨0x47#8, 3#8, 0#8⟩).take (Instr.prn 3).width := by decide

theorem witness_StepRunsTheDecodedInstruction :
    (at3 253 0x82#8 7#8 9#8 zeros 0#8).status = .running ∧
    (at3 253 0x82#8 7#8 9#8 zeros 0#8).mem.read 253 = .ok 0x82#8 ∧
    (at3 253 0x82#8 7#8 9#8 zeros 0#8).mem.read 254 = .ok 7#8 ∧
    (at3 253 0x82#8 7#8 9#8 zeros 0#8).mem.read 255 = .ok 9#8 ∧
    decodeWindow opcodeOf ⟨0x82#8, 7#8, 9#8⟩ = .ok (.ldi 7 9) := by decide

theorem witness_EncodedInstructionRunsUnderEveryTable :
    otherTable.Legal ∧ (Instr.ldi 7 9).wellFormed = true ∧ (at3 253 2#8 7#8 9#8 zeros 0#8).status = .running ∧
    ∀ k, k < (Instr.ldi 7 9).width →
      (at3 253 2#8 7#8 9#8 zeros 0#8).mem.read (253 + k) = .ok ((encode otherTable (.ldi 7 9)).getD k 0#8) :=
  ⟨otherTable_legal, by decide, by decide, by decide⟩

theorem witness_WindowAboveMemoryFaultsAtFetch :
    ({ State.reset with pc := 254 } : State).pc = 254 ∧ ({ State.reset with pc := 255 } : State).pc = 255 ∧
    255 < ({ State.reset with pc := 256 } : State).pc ∧ ({ State.reset with pc := 256 } : State).status = .running := by
  decide

theorem witness_UnknownOpcodeEndsInDecodeError :
    (at3 253 0xA0#8 0#8 0#8 zeros 0#8).status = .running ∧
    (at3 253 0xA0#8 0#8 0#8 zeros 0#8).mem.read 253 = .ok 0xA0#8 ∧ ∀ m, opcodeOf m ≠ 0xA0#8 := by
  refine ⟨by decide, by decide, ?_⟩
  intro m
  cases m <;> decide

theorem witness_TerminalStatesNeverChange :
    ({ State.reset with status := .halted } : State).Terminal ∧
    ({ State.reset with status := .faulted, fault := some ⟨.decodeError 0#8, 0⟩ } : State).Terminal := by
  simp [State.Terminal]

theorem witness_OnlyHaltHalts : (at3 253 1#8 0#8 0#8 zeros 0#8).status = .running ∧
    ∃ t, step (at3 253 1#8 0#8 0#8 zeros 0#8) = .next t ∧ t.Succeeded := ⟨rfl, _, rfl, rfl⟩

theorem witness_JumpToItselfNeverEnds :
    (at3 8 0x54#8 7#8 0#8 #v[0, 0, 0, 0, 0, 0, 0, 8] 0#8).mem.read 8 = .ok (opcodeOf .jmp) ∧
    (at3 8 0x54#8 7#8 0#8 #v[0, 0, 0, 0, 0, 0, 0, 8] 0#8).mem.read 9 = .ok (BitVec.ofNat 8 7) ∧
    (at3 8 0x54#8 7#8 0#8 #v[0, 0, 0, 0, 0, 0, 0, 8] 0#8).x[7] =
      (at3 8 0x54#8 7#8 0#8 #v[0, 0, 0, 0, 0, 0, 0, 8] 0#8).pc := by decide

theorem witness_TraceShowsTheFetchedWindow :
    (∃ w, (at3 253 1#8 0#8 0#8 zeros 0#8).fetch = .ok w) ∧
    ∃ c, ({ State.reset with pc := 254 } : State).fetch = .error c := ⟨⟨_, rfl⟩, ⟨_, rfl⟩⟩

/-! The clauses of the instructions' statements at the ends of the register file: 7 is the last register, 8 the first
index outside. -/

theorem witness_LdiLoadsImmediate : (∃ a, a = 7 ∧ a < 8) ∧ ∃ a, a = 8 ∧ 7 < a :=
  ⟨⟨7, rfl, by decide⟩, ⟨8, rfl, by decide⟩⟩
theorem witness_PrnEmitsRegister : (∃ a, a = 7 ∧ a < 8) ∧ ∃ a, a = 8 ∧ 7 < a :=
  ⟨⟨7, rfl, by decide⟩, ⟨8, rfl, by decide⟩⟩
theorem witness_MulWritesExactProduct :
    (∃ a b, a = 7 ∧ b = 7 ∧ a < 8 ∧ b < 8) ∧ (∃ a, a = 8 ∧ 7 < a) ∧ ∃ a b, a = 7 ∧ b = 8 ∧ a < 8 ∧ 7 < b := by simp
theorem witness_CmpSetsEqualFlag :
    (∃ a b, a = 7 ∧ b = 7 ∧ a < 8 ∧ b < 8) ∧ (∃ a, a = 8 ∧ 7 < a) ∧ ∃ a b, a = 7 ∧ b = 8 ∧ a < 8 ∧ 7 < b := by simp
theorem witness_JmpCopiesRegisterToPc : (∃ a, a = 7 ∧ a < 8) ∧ ∃ a, a = 8 ∧ 7 < a :=
  ⟨⟨7, rfl, by decide⟩, ⟨8, rfl, by decide⟩⟩
theorem witness_JeqJumpsWhenEqual : (at3 0 0x55#8 8#8 0#8 zeros 0#8).fl.getLsbD 0 = false ∧
    ((at3 0 0x55#8 7#8 0#8 zeros 1#8).fl.getLsbD 0 = true ∧ ∃ a, a = 7 ∧ a < 8) ∧
    ((at3 0 0x55#8 8#8 0#8 zeros 1#8).fl.getLsbD 0 = true ∧ ∃ a, a = 8 ∧ 7 < a) :=
  ⟨by decide, ⟨by decide, 7, rfl, by decide⟩, ⟨by decide, 8, rfl, by decide⟩⟩
theorem witness_JneJumpsWhenNotEqual : (at3 0 0x56#8 8#8 0#8 zeros 1#8).fl.getLsbD 0 = true ∧
    ((at3 0 0x56#8 7#8 0#8 zeros 0#8).fl.getLsbD 0 = false ∧ ∃ a, a = 7 ∧ a < 8) ∧
    ((at3 0 0x56#8 8#8 0#8 zeros 0#8).fl.getLsbD 0 = false ∧ ∃ a, a = 8 ∧ 7 < a) :=
  ⟨by decide, ⟨by decide, 7, rfl, by decide⟩, ⟨by decide, 8, rfl, by decide⟩⟩

theorem witness_RegistersHoldUnboundedValues : (Instr.mul 0 0).wellFormed = true ∧
    ∃ t, exec (.mul 0 0) (at3 0 0xA2#8 0#8 0#8 #v[16, 0, 0, 0, 0, 0, 0, 0] 0#8) = .next t ∧ 255 < t.x[0] :=
  ⟨by decide, _, rfl, by decide⟩

theorem witness_HandlerFrame : ∃ t, exec (.cmp 0 7) (at3 0 0xA7#8 0#8 7#8 zeros 0#8) = .next t ∧
    destination (.cmp 0 7) ≠ some 0 ∧ (∀ a, Instr.cmp 0 7 ≠ .prn a) ∧ (∀ a b, Instr.ldi 0 7 ≠ .cmp a b) ∧
    firstBadRegister (.cmp 0 7) (at3 0 0xA7#8 0#8 7#8 zeros 0#8) = none :=
  ⟨_, rfl, by decide, by simp, by simp, by decide⟩

theorem witness_HandlersFaultExactlyOnBadRegisters :
    firstBadRegister (.mul 7 8) State.reset = some 8 ∧ firstBadRegister (.jeq 8) State.reset = none ∧
    (Instr.mul 7 0).namesRegisters = true := by decide

theorem witness_CompareDecidesTheNextJump :
    (at3 0 0xA7#8 0#8 1#8 zeros 0#8).x[0] = (at3 0 0xA7#8 0#8 1#8 zeros 0#8).x[1] ∧
    (at3 0 0xA7#8 0#8 1#8 #v[256, 0, 0, 0, 0, 0, 0, 0] 0#8).x[0] ≠
      (at3 0 0xA7#8 0#8 1#8 #v[256, 0, 0, 0, 0, 0, 0, 0] 0#8).x[1] := by decide

theorem witness_JumpTargetIsCheckedAtTheNextFetch :
    (at3 0 0x54#8 0#8 0#8 #v[253, 254, 0, 0, 0, 0, 0, 0] 0#8).status = .running ∧
    (at3 0 0x54#8 0#8 0#8 #v[253, 254, 0, 0, 0, 0, 0, 0] 0#8).x[0] ≤ 253 ∧
    253 < (at3 0 0x54#8 0#8 0#8 #v[253, 254, 0, 0, 0, 0, 0, 0] 0#8).x[1] := by decide

theorem witness_OutputIsWhatPrintRegisterPrintedInOrder :
    ∃ t, runFor 1 (at3 0 0x47#8 0#8 0#8 #v[65025, 0, 0, 0, 0, 0, 0, 0] 0#8) = .next t ∧ t.out = [65025] ∧
      printedBy 1 (at3 0 0x47#8 0#8 0#8 #v[65025, 0, 0, 0, 0, 0, 0, 0] 0#8) = [65025] :=
  ⟨_, rfl, rfl, rfl⟩

theorem witness_EveryStepKeepsInv : (at3 253 0x47#8 8#8 0#8 zeros 0#8).Inv ∧
    ∃ t, step (at3 253 0x47#8 8#8 0#8 zeros 0#8) = .next t ∧ t.status = .faulted :=
  ⟨⟨by decide, by decide, by simp [at3], by simp [at3]⟩, _, rfl, rfl⟩

theorem witness_EveryRunOfEveryFileKeepsInv :
    (∃ t, runFor 2 (construct (some ["10000010".toList, "00000111".toList])) = .next t ∧ t.status = .faulted) ∧
    ∃ t, runFor 2 (construct none) = .next t ∧ t.fault = some ⟨.programFileError .missingFile, 0⟩ :=
  ⟨⟨_, rfl, rfl⟩, ⟨_, rfl, rfl⟩⟩

theorem witness_UpperFlagBitsAreNeverObserved :
    (0b10000001#8).getLsbD 0 = (at3 0 0x55#8 7#8 0#8 zeros 1#8).fl.getLsbD 0 ∧
    0b10000001#8 ≠ (at3 0 0x55#8 7#8 0#8 zeros 1#8).fl := by decide

end Sys2Proof.Tests
end

section
/-! PROOFS. What a handler does, said once for the proofs that follow: it completes with one of the effects listed by
`Completes`, or it raises the addressing error of its first register index above 7 (R83, R86, R158). -/

namespace Sys2Proof.Machine

/-- `Completes s i t`: every register the handler of `i` accesses in `s` is in the file, and `t` is the state after all
its writes (R100, R102, R110 to R112, R131 to R133). `Completes.exec_eq` and `exec_cases` tie it to `exec`. -/
inductive Completes (s : State) : Instr → State → Prop where
  | hlt : Completes s .hlt s.halt
  | ldi (a v : Nat) (ha : a < 8) : Completes s (.ldi a v) ({ s with x := s.x.set a v }.advance 3)
  | prn (a : Nat) (ha : a < 8) : Completes s (.prn a) ((s.emit s.x[a]).advance 2)
  | mul (a b : Nat) (ha : a < 8) (hb : b < 8) :
      Completes s (.mul a b) ({ s with x := s.x.set a (s.x[a] * s.x[b]) }.advance 3)
  | cmp (a b : Nat) (ha : a < 8) (hb : b < 8) :
      Completes s (.cmp a b) ((s.setFlags (compareFlags s.x[a] s.x[b])).advance 3)
  | jmp (a : Nat) (ha : a < 8) : Completes s (.jmp a) (s.jump s.x[a])
  | jeqTaken (a : Nat) (he : s.fl.getLsbD 0 = true) (ha : a < 8) : Completes s (.jeq a) (s.jump s.x[a])
  | jeqNext (a : Nat) (he : s.fl.getLsbD 0 = false) : Completes s (.jeq a) (s.advance 2)
  | jneTaken (a : Nat) (he : s.fl.getLsbD 0 = false) (ha : a < 8) : Completes s (.jne a) (s.jump s.x[a])
  | jneNext (a : Nat) (he : s.fl.getLsbD 0 = true) : Completes s (.jne a) (s.advance 2)

/-! ### JEQ and JNE by the flag -/

theorem execJeq_of_equal {s : State} (he : s.fl.getLsbD 0 = true) (a : Nat) :
    execJeq a s = settle s (s.jumpToReg a) := by
  rw [execJeq, State.equalFlag, if_pos he]

theorem execJeq_of_not_equal {s : State} (he : s.fl.getLsbD 0 = false) (a : Nat) :
    execJeq a s = .next (s.advance 2) := by
  rw [execJeq, State.equalFlag, he]; rfl

theorem execJne_of_equal {s : State} (he : s.fl.getLsbD 0 = true) (a : Nat) :
    execJne a s = .next (s.advance 2) := by
  rw [execJne, State.equalFlag, if_pos he]; rfl

theorem execJne_of_not_equal {s : State} (he : s.fl.getLsbD 0 = false) (a : Nat) :
    execJne a s = settle s (s.jumpToReg a) := by
  rw [execJne, State.equalFlag, he]; rfl

theorem accessed_jeq_of_equal {s : State} (he : s.fl.getLsbD 0 = true) (a : Nat) : accessed (.jeq a) s = [a] := by
  rw [accessed, if_pos he]

theorem accessed_jeq_of_not_equal {s : State} (he : s.fl.getLsbD 0 = false) (a : Nat) :
    accessed (.jeq a) s = [] := by
  rw [accessed, he]; rfl

theorem accessed_jne_of_equal {s : State} (he : s.fl.getLsbD 0 = true) (a : Nat) : accessed (.jne a) s = [] := by
  rw [accessed, if_pos he]

theorem accessed_jne_of_not_equal {s : State} (he : s.fl.getLsbD 0 = false) (a : Nat) :
    accessed (.jne a) s = [a] := by
  rw [accessed, he]; rfl

/-! ### The first register index above 7 -/

theorem firstBadRegister_none {i : Instr} {s : State} : firstBadRegister i s = none ↔ ∀ r ∈ accessed i s, r < 8 := by
  simp only [firstBadRegister, List.find?_eq_none, decide_eq_true_eq, not_lt]
  exact forall₂_congr fun r _ => Nat.lt_succ_iff.symm

theorem firstBadRegister_mem {i : Instr} {s : State} {r : Nat} (h : firstBadRegister i s = some r) :
    r ∈ accessed i s :=
  List.mem_of_find?_eq_some h

theorem firstBadRegister_ge {i : Instr} {s : State} {r : Nat} (h : firstBadRegister i s = some r) : 8 ≤ r := by
  have hr : 7 < r := by simpa using List.find?_some h
  exact hr

theorem firstBadRegister_one {i : Instr} {s : State} {a r : Nat} (hi : accessed i s = [a])
    (h : firstBadRegister i s = some r) : a = r :=
  (List.mem_singleton.mp (hi ▸ firstBadRegister_mem h)).symm

/-- Of two register operands the first is checked first (R158, D7). -/
theorem firstBadRegister_two {i : Instr} {s : State} {a b r : Nat} (hi : accessed i s = [a, b])
    (h : firstBadRegister i s = some r) : a = r ∨ (a < 8 ∧ b = r) := by
  rw [firstBadRegister, hi, List.find?_cons] at h
  by_cases ha : 7 < a
  · exact .inl (by simpa [ha] using h)
  · have hb : [b].find? (fun r => decide (7 < r)) = some r := by simpa [ha] using h
    exact .inr ⟨by omega, (List.mem_singleton.mp (List.mem_of_find?_eq_some hb)).symm⟩

/-- A handler accesses no register but its register operands (R22). -/
theorem mem_registerOperands_of_accessed {i : Instr} {s : State} {r : Nat} (hr : r ∈ accessed i s) :
    r ∈ i.registerOperands := by
  cases i with
  | jeq a => rw [accessed] at hr; split at hr <;> simp_all [Instr.registerOperands]
  | jne a => rw [accessed] at hr; split at hr <;> simp_all [Instr.registerOperands]
  | _ => exact hr

/-- A register operand is one byte (R60, R64). -/
theorem registerOperand_le_of_wellFormed {i : Instr} {r : Nat} (hi : i.wellFormed = true)
    (hr : r ∈ i.registerOperands) : r ≤ 255 := by
  cases i <;> simp only [Instr.registerOperands, List.mem_cons, List.not_mem_nil, or_false] at hr <;>
    simp only [Instr.wellFormed, operandFits, Bool.and_eq_true, decide_eq_true_eq] at hi <;> omega

/-! ### Each handler completes or raises -/

theorem Completes.exec_eq {i : Instr} {s t : State} (h : Completes s i t) : exec i s = .next t := by
  cases h with
  | hlt => rfl
  | ldi a v ha => rw [exec, execLdi, State.writeReg_of_lt s ha]; rfl
  | prn a ha => rw [exec, execPrn, State.readReg_of_lt s ha]; rfl
  | mul a b ha hb =>
    rw [exec, execMul, State.aluRR_of_lt s _ ha hb, alu, Except.bind, State.applyAlu, State.writeReg_of_lt s ha]; rfl
  | cmp a b ha hb => rw [exec, execCmp, State.aluRR_of_lt s _ ha hb]; rfl
  | jmp a ha => rw [exec, execJmp, State.jumpToReg_of_lt s ha]; rfl
  | jeqTaken a he ha => rw [exec, execJeq_of_equal he, State.jumpToReg_of_lt s ha]; rfl
  | jeqNext a he => rw [exec, execJeq_of_not_equal he]
  | jneTaken a he ha => rw [exec, execJne_of_not_equal he, State.jumpToReg_of_lt s ha]; rfl
  | jneNext a he => rw [exec, execJne_of_equal he]

theorem exists_completes {i : Instr} {s : State} (h : ∀ r ∈ accessed i s, r < 8) : ∃ t, Completes s i t := by
  cases i with
  | hlt => exact ⟨_, .hlt⟩
  | ldi a v => exact ⟨_, .ldi a v (h a (by simp [accessed]))⟩
  | prn a => exact ⟨_, .prn a (h a (by simp [accessed]))⟩
  | mul a b => exact ⟨_, .mul a b (h a (by simp [accessed])) (h b (by simp [accessed]))⟩
  | cmp a b => exact ⟨_, .cmp a b (h a (by simp [accessed])) (h b (by simp [accessed]))⟩
  | jmp a => exact ⟨_, .jmp a (h a (by simp [accessed]))⟩
  | jeq a =>
    cases he : s.fl.getLsbD 0 with
    | true => exact ⟨_, .jeqTaken a he (h a (by simp [accessed_jeq_of_equal he]))⟩
    | false => exact ⟨_, .jeqNext a he⟩
  | jne a =>
    cases he : s.fl.getLsbD 0 with
    | true => exact ⟨_, .jneNext a he⟩
    | false => exact ⟨_, .jneTaken a he (h a (by simp [accessed_jne_of_not_equal he]))⟩

/-- The RR body raises the addressing error of its first register outside the file (R158, D7). -/
theorem aluRR_of_firstBadRegister {i : Instr} {s : State} {a b r : Nat} (op : AluOp) (hi : accessed i s = [a, b])
    (h : firstBadRegister i s = some r) : s.aluRR op a b = .error (.addressingErrorReg r) := by
  have hr := firstBadRegister_ge h
  obtain rfl | ⟨ha, rfl⟩ := firstBadRegister_two hi h
  · exact State.aluRR_of_ge_left s op b hr
  · exact State.aluRR_of_ge_right s op ha hr

theorem exec_of_firstBadRegister {i : Instr} {s : State} {r : Nat} (h : firstBadRegister i s = some r) :
    exec i s = .next (s.raise (.addressingErrorReg r)) := by
  have hr := firstBadRegister_ge h
  have hmem := firstBadRegister_mem h
  cases i with
  | hlt => simp [accessed] at hmem
  | ldi a v =>
    obtain rfl := firstBadRegister_one rfl h
    rw [exec, execLdi, State.writeReg_of_ge s hr]; rfl
  | prn a =>
    obtain rfl := firstBadRegister_one rfl h
    rw [exec, execPrn, State.readReg_of_ge s hr]; rfl
  | mul a b => rw [exec, execMul, aluRR_of_firstBadRegister _ rfl h]; rfl
  | cmp a b => rw [exec, execCmp, aluRR_of_firstBadRegister _ rfl h]; rfl
  | jmp a =>
    obtain rfl := firstBadRegister_one rfl h
    rw [exec, execJmp, State.jumpToReg_of_ge s hr]; rfl
  | jeq a =>
    cases he : s.fl.getLsbD 0 with
    | true =>
      obtain rfl := firstBadRegister_one (accessed_jeq_of_equal he a) h
      rw [exec, execJeq_of_equal he, State.jumpToReg_of_ge s hr]; rfl
    | false => simp [accessed_jeq_of_not_equal he] at hmem
  | jne a =>
    cases he : s.fl.getLsbD 0 with
    | true => simp [accessed_jne_of_equal he] at hmem
    | false =>
      obtain rfl := firstBadRegister_one (accessed_jne_of_not_equal he a) h
      rw [exec, execJne_of_not_equal he, State.jumpToReg_of_ge s hr]; rfl

/-- Everything a handler can do (R83, R86). -/
theorem exec_cases {i : Instr} {s t : State} (h : exec i s = .next t) :
    Completes s i t ∨ ∃ r, firstBadRegister i s = some r ∧ t = s.raise (.addressingErrorReg r) := by
  cases hb : firstBadRegister i s with
  | none =>
    obtain ⟨u, hu⟩ := exists_completes (firstBadRegister_none.mp hb)
    obtain rfl : u = t := by simpa [hu.exec_eq] using h
    exact .inl hu
  | some r =>
    rw [exec_of_firstBadRegister hb] at h
    cases h
    exact .inr ⟨r, rfl, rfl⟩

/-! ### What every completing handler leaves unchanged -/

theorem Completes.mem_eq {i : Instr} {s t : State} (h : Completes s i t) : t.mem = s.mem := by
  cases h <;> rfl

theorem Completes.fault_eq {i : Instr} {s t : State} (h : Completes s i t) : t.fault = s.fault := by
  cases h <;> rfl

/-- Only HALT changes the status (R100). -/
theorem Completes.status_eq {i : Instr} {s t : State} (h : Completes s i t) :
    t.status = if i = .hlt then .halted else s.status := by
  cases h <;> rfl

/-- Only COMPARE changes the flag register (R28). -/
theorem Completes.fl_eq {i : Instr} {s t : State} (h : Completes s i t) (hi : ∀ a b, i ≠ .cmp a b) : t.fl = s.fl := by
  cases h with
  | cmp a b => exact absurd rfl (hi a b)
  | _ => rfl

/-- Only PRINT_REGISTER changes the output stream (R31). -/
theorem Completes.out_eq {i : Instr} {s t : State} (h : Completes s i t) (hi : ∀ a, i ≠ .prn a) : t.out = s.out := by
  cases h with
  | prn a => exact absurd rfl (hi a)
  | _ => rfl

/-- Only the destination register changes (R22). -/
theorem Completes.x_eq {i : Instr} {s t : State} (h : Completes s i t) {r : Nat} (hr : r < 8)
    (hd : destination i ≠ some r) : t.x[r] = s.x[r] := by
  cases h with
  | ldi a v ha =>
    have har : a ≠ r := fun e => hd (congrArg some e)
    simp [har]
  | mul a b ha hb =>
    have har : a ≠ r := fun e => hd (congrArg some e)
    simp [har]
  | _ => rfl

end Sys2Proof.Machine
end

section
/-! PROOFS. The invariant of R30, R151 and R152: at reset, over one step, and over every run from every program file
(O38, O39, O40). -/

namespace Sys2Proof.Machine

/-! ### States that meet the invariant -/

theorem State.inv_of_no_fault {s : State} (hm : s.mem.wf) (hf : s.fault = none) (hs : s.status ≠ .faulted) :
    s.Inv where
  memWf := hm
  faultIffFaulted := by simp [hf, hs]
  faultPc := by simp [hf]
  faultLegal := by simp [hf]

theorem State.inv_raise {s : State} {c : FaultCause} (hm : s.mem.wf) (hc : c.Legal) : (s.raise c).Inv where
  memWf := hm
  faultIffFaulted := by simp
  faultPc := by simp
  faultLegal := by simp [hc]

theorem State.Inv.fault_none {s : State} (h : s.Inv) (hs : s.status = .running) : s.fault = none := by
  simpa [hs] using h.faultIffFaulted

theorem State.reset_inv : State.reset.Inv := State.inv_of_no_fault State.reset_mem_wf rfl (by simp)

/-! ### One step -/

/-- A cause a step can record: one with a legal info, and not the loader's (R151, R157). -/
def FaultCause.RaisedByStep (c : FaultCause) : Prop := c.Legal ∧ ∀ e, c ≠ .programFileError e

theorem raisedByStep_addressingErrorMem {a : Nat} (h : 256 ≤ a) : (FaultCause.addressingErrorMem a).RaisedByStep :=
  ⟨h, nofun⟩

theorem raisedByStep_addressingErrorReg {r : Nat} (h : 8 ≤ r) (h' : r ≤ 255) :
    (FaultCause.addressingErrorReg r).RaisedByStep :=
  ⟨⟨h, h'⟩, nofun⟩

theorem raisedByStep_decodeError {op : Byte} (h : ∀ m, opcodeOf m ≠ op) : (FaultCause.decodeError op).RaisedByStep :=
  ⟨h, nofun⟩

/-- Everything a step can do (R80 to R83, R86): nothing in a terminal state; a fault; or a handler's completion. -/
theorem step_cases {s t : State} (h : step s = .next t) :
    t = s ∨ (s.status = .running ∧ ∃ c, c.RaisedByStep ∧ t = s.raise c) ∨
      (s.status = .running ∧ ∃ i, Completes s i t) := by
  rw [step] at h
  obtain ⟨_, he⟩ | ⟨hs, _, he⟩ | ⟨hs, _, hop, he⟩ | ⟨hs, _, m, _, _, he⟩ := engineStep_cases opcodeOf s <;>
    rw [he] at h
  · cases h; exact .inl rfl
  · cases h
    exact .inr (.inl ⟨hs, _, raisedByStep_addressingErrorMem (le_max_right _ _), rfl⟩)
  · cases h
    exact .inr (.inl ⟨hs, _, raisedByStep_decodeError hop, rfl⟩)
  · obtain hc | ⟨r, hr, rfl⟩ := exec_cases h
    · exact .inr (.inr ⟨hs, _, hc⟩)
    · have hle := registerOperand_le_of_wellFormed (operandsOf_wellFormed m _ _)
        (mem_registerOperands_of_accessed (firstBadRegister_mem hr))
      exact .inr (.inl ⟨hs, _, raisedByStep_addressingErrorReg (firstBadRegister_ge hr) hle, rfl⟩)

theorem Completes.inv {i : Instr} {s t : State} (h : Completes s i t) (hi : s.Inv) (hs : s.status = .running) :
    t.Inv := by
  refine State.inv_of_no_fault (h.mem_eq ▸ hi.memWf) (h.fault_eq.trans (hi.fault_none hs)) ?_
  rw [h.status_eq, hs]
  split <;> simp

theorem State.Inv.of_step {s t : State} (hi : s.Inv) (h : step s = .next t) : t.Inv := by
  obtain rfl | ⟨_, c, hc, rfl⟩ | ⟨hs, i, hc⟩ := step_cases h
  · exact hi
  · exact State.inv_raise hi.memWf hc.1
  · exact hc.inv hi hs

/-- No step records the loader's error (R157). -/
theorem State.Inv.eq_of_step_programFileError {s t : State} {e : LoadError} {pc : Nat} (hi : s.Inv)
    (h : step s = .next t) (hf : t.fault = some ⟨.programFileError e, pc⟩) : t = s := by
  obtain ht | ⟨_, c, hc, rfl⟩ | ⟨hs, i, hc⟩ := step_cases h
  · exact ht
  · obtain ⟨hce, _⟩ : c = .programFileError e ∧ s.pc = pc := by simpa using hf
    exact absurd hce (hc.2 e)
  · simp [hc.fault_eq, hi.fault_none hs] at hf

/-! ### Every run -/

/-- What holds of a state and is kept by every step holds after every run. -/
theorem runFor_induction {P : State → Prop} (hstep : ∀ s t, P s → step s = .next t → P t) (n : Nat) {s t : State}
    (hs : P s) (h : runFor n s = .next t) : P t := by
  induction n generalizing s with
  | zero => cases h; exact hs
  | succ n ih =>
    obtain ⟨u, hu⟩ := step_next s
    exact ih (hstep s u hs hu) (runFor_succ hu n ▸ h)

theorem State.Inv.of_runFor {s t : State} {n : Nat} (hi : s.Inv) (h : runFor n s = .next t) : t.Inv :=
  runFor_induction (fun _ _ hs hst => hs.of_step hst) n hi h

theorem State.Inv.eq_of_runFor_programFileError {s t : State} {n : Nat} {e : LoadError} {pc : Nat} (hi : s.Inv)
    (h : runFor n s = .next t) (hf : t.fault = some ⟨.programFileError e, pc⟩) : t = s := by
  induction n generalizing s with
  | zero => cases h; rfl
  | succ n ih =>
    obtain ⟨u, hu⟩ := step_next s
    obtain rfl := ih (hi.of_step hu) (runFor_succ hu n ▸ h)
    exact hi.eq_of_step_programFileError hu hf

theorem started_inv {r : Except LoadError Memory} (h : ∀ m, r = .ok m → m.wf) : (started r).Inv := by
  cases r with
  | ok m => exact State.inv_of_no_fault (h m rfl) rfl (by simp [started])
  | error e => exact State.inv_raise State.reset_mem_wf trivial

theorem construct_inv (file : Option (List (List Char))) : (construct file).Inv := by
  cases file with
  | none => exact started_inv (r := .error .missingFile) nofun
  | some ls => exact started_inv fun _ hm => Memory.wf_loadLines Memory.wf_nil hm

/-- Settles O38: an empty memory is canonical, and reset records nothing. -/
theorem resetMeetsInv : Obligations.ResetMeetsInv :=
  ⟨State.reset_inv, rfl, rfl⟩

/-- Settles O39: a step from a RUNNING state either raises a cause with a legal info or completes a handler, which keeps
the memory and the empty record. -/
theorem everyStepKeepsInv : Obligations.EveryStepKeepsInv :=
  fun _ _ hi h => hi.of_step h

/-- Settles O40, by induction over the run, from the invariant of a constructed engine. -/
theorem everyRunOfEveryFileKeepsInv : Obligations.EveryRunOfEveryFileKeepsInv := by
  intro file n t h
  have hi := construct_inv file
  exact ⟨hi.of_runFor h, fun _ _ hf => hi.eq_of_runFor_programFileError h hf⟩

end Sys2Proof.Machine
end

section
/-! PROOFS. The register file (R20, R21, R24, D3) and the frame of every handler (R22, R86): O1, O32, O33. -/

namespace Sys2Proof.Machine

/-- A write inside the file is read back exactly and leaves the other seven (R20, R21). -/
theorem State.readReg_set (s : State) {i : Nat} (hi : i < 8) (v j : Nat) :
    ({ s with x := s.x.set i v } : State).readReg j = if j = i then .ok v else s.readReg j := by
  by_cases hj : j < 8
  · rw [State.readReg_of_lt _ hj, State.readReg_of_lt s hj]
    by_cases hji : j = i
    · simp [hji]
    · simp [hji, Ne.symm hji]
  · have hj8 : 8 ≤ j := by omega
    rw [State.readReg_of_ge _ hj8, State.readReg_of_ge s hj8, if_neg (by omega)]

/-- A completing handler gives a register a value above 255 only as MULTIPLY's product (D3). -/
theorem Completes.x_eq_or_mul {i : Instr} {s t : State} (h : Completes s i t) (hwf : i.wellFormed = true) {r : Nat}
    (hr : r < 8) (hbig : 255 < t.x[r]) : t.x[r] = s.x[r] ∨ ∃ b, i = .mul r b := by
  by_cases hd : destination i = some r
  · cases h with
    | ldi a v ha =>
      obtain rfl : a = r := Option.some.inj hd
      obtain ⟨_, hv⟩ : a < 256 ∧ v < 256 := by simpa [Instr.wellFormed, operandFits] using hwf
      have hv' : 255 < v := by simpa using hbig
      omega
    | mul a b ha hb =>
      obtain rfl : a = r := Option.some.inj hd
      exact .inr ⟨b, rfl⟩
    | _ => cases hd
  · exact .inl (h.x_eq hr hd)

/-- Settles O1, by the read law inside the file and the reset registers. -/
theorem resetRegistersReadZero : Obligations.ResetRegistersReadZero := by
  intro i hi
  rw [State.readReg_of_lt _ hi, State.reset_x]

/-- Settles O32, from the two ports' laws and the effects of the handlers. -/
theorem registersHoldUnboundedValues : Obligations.RegistersHoldUnboundedValues := by
  refine ⟨fun s i v => ⟨fun hi => ?_, fun hi => ?_⟩, fun i s t hwf h r hr hbig => ?_⟩
  · exact ⟨_, State.writeReg_of_lt s hi v, State.readReg_set s hi v⟩
  · exact ⟨State.readReg_of_ge s hi, State.writeReg_of_ge s hi v⟩
  · obtain hc | ⟨_, _, rfl⟩ := exec_cases h
    · exact hc.x_eq_or_mul hwf hr hbig
    · exact .inl rfl

/-- Settles O33: a completing handler by its frame lemmas, a fault because it changes the status and the record
alone. -/
theorem handlerFrame : Obligations.HandlerFrame := by
  intro i s t h
  obtain hc | ⟨r, hr, rfl⟩ := exec_cases h
  · exact ⟨fun a => by rw [hc.mem_eq], fun r hr hd => hc.x_eq hr hd, hc.fl_eq, hc.out_eq,
      fun _ => ⟨hc.fault_eq, fun hi => by rw [hc.status_eq, if_neg hi]⟩⟩
  · exact ⟨fun _ => rfl, fun _ _ _ => rfl, fun _ => rfl, fun _ => rfl, fun hn => by simp [hn] at hr⟩

end Sys2Proof.Machine
end

section
/-! PROOFS. Bits 7..1 of `fl` are never observed (R28, U4): one step from two states that differ only there, then every
run by induction (O41). -/

namespace Sys2Proof.Machine

/-- Both outcomes are next states, equal but for bits 7..1 of `fl`. -/
def AgreeOnFlag (r r' : Result) : Prop :=
  ∃ (t : State) (g : Byte), r = .next t ∧ r' = .next (t.setFlags g) ∧ g.getLsbD 0 = t.fl.getLsbD 0

theorem State.fetch_setFlags (s : State) (f : Byte) : (s.setFlags f).fetch = s.fetch := rfl

theorem firstBadRegister_setFlags (i : Instr) {s : State} {f : Byte} (hf : f.getLsbD 0 = s.fl.getLsbD 0) :
    firstBadRegister i (s.setFlags f) = firstBadRegister i s := by
  have ha : accessed i (s.setFlags f) = accessed i s := by
    cases i with
    | jeq a => rw [accessed, State.setFlags_fl, hf, accessed]
    | jne a => rw [accessed, State.setFlags_fl, hf, accessed]
    | _ => rfl
  rw [firstBadRegister, ha, firstBadRegister]

/-- COMPARE overwrites all of `fl`; every other handler carries it along and reads bit 0 at most. -/
theorem Completes.setFlags {i : Instr} {s t : State} {f : Byte} (h : Completes s i t)
    (hf : f.getLsbD 0 = s.fl.getLsbD 0) :
    ∃ g : Byte, Completes (s.setFlags f) i (t.setFlags g) ∧ g.getLsbD 0 = t.fl.getLsbD 0 := by
  cases h with
  | hlt => exact ⟨f, .hlt, hf⟩
  | ldi a v ha => exact ⟨f, .ldi a v ha, hf⟩
  | prn a ha => exact ⟨f, .prn a ha, hf⟩
  | mul a b ha hb => exact ⟨f, .mul a b ha hb, hf⟩
  | cmp a b ha hb => exact ⟨compareFlags s.x[a] s.x[b], .cmp a b ha hb, rfl⟩
  | jmp a ha => exact ⟨f, .jmp a ha, hf⟩
  | jeqTaken a he ha => exact ⟨f, .jeqTaken a (hf.trans he) ha, hf⟩
  | jeqNext a he => exact ⟨f, .jeqNext a (hf.trans he), hf⟩
  | jneTaken a he ha => exact ⟨f, .jneTaken a (hf.trans he) ha, hf⟩
  | jneNext a he => exact ⟨f, .jneNext a (hf.trans he), hf⟩

theorem exec_agreeOnFlag (i : Instr) {s : State} {f : Byte} (hf : f.getLsbD 0 = s.fl.getLsbD 0) :
    AgreeOnFlag (exec i s) (exec i (s.setFlags f)) := by
  cases hb : firstBadRegister i s with
  | none =>
    obtain ⟨t, ht⟩ := exists_completes (firstBadRegister_none.mp hb)
    obtain ⟨g, hg, hbit⟩ := ht.setFlags hf
    exact ⟨t, g, ht.exec_eq, hg.exec_eq, hbit⟩
  | some r =>
    exact ⟨_, f, exec_of_firstBadRegister hb, exec_of_firstBadRegister (firstBadRegister_setFlags i hf ▸ hb), hf⟩

theorem step_agreeOnFlag {s : State} {f : Byte} (hf : f.getLsbD 0 = s.fl.getLsbD 0) :
    AgreeOnFlag (step s) (step (s.setFlags f)) := by
  rw [step, step, engineStep, engineStep, State.setFlags_status]
  cases s.status with
  | halted => exact ⟨s, f, rfl, rfl, hf⟩
  | faulted => exact ⟨s, f, rfl, rfl, hf⟩
  | running =>
    simp only [runningStep, State.fetch_setFlags]
    cases s.fetch with
    | error c => exact ⟨s.raise c, f, rfl, rfl, hf⟩
    | ok w =>
      simp only [dispatchWindow]
      cases decodeWindow opcodeOf w with
      | error _ => exact ⟨s.raise (.decodeError w.op), f, rfl, rfl, hf⟩
      | ok i => exact exec_agreeOnFlag i hf

theorem runFor_agreeOnFlag (n : Nat) {s : State} {f : Byte} (hf : f.getLsbD 0 = s.fl.getLsbD 0) :
    AgreeOnFlag (runFor n s) (runFor n (s.setFlags f)) := by
  induction n generalizing s f with
  | zero => exact ⟨s, f, rfl, rfl, hf⟩
  | succ n ih =>
    obtain ⟨t, g, ht, ht', hg⟩ := step_agreeOnFlag hf
    rw [runFor_succ ht, runFor_succ ht']
    exact ih hg

/-- Settles O41, by induction over the run with the agreement of the two states as what every step keeps. -/
theorem upperFlagBitsAreNeverObserved : Obligations.UpperFlagBitsAreNeverObserved :=
  fun n _ _ hf => runFor_agreeOnFlag n hf

end Sys2Proof.Machine
end

section
/-! PROOFS. The memory: its two ports, its canonical form as the data of its 256 cells, and its constancy during a run
(R40 to R42, R45, R52): O5, O6, O7. -/

namespace Sys2Proof.Machine

/-! ### The two ports -/

theorem Memory.write_of_le {m : Memory} {a : Nat} (h : a ≤ 255) (v : Byte) : m.write a v = .ok (m.store a v) := by
  rw [Memory.write, if_neg (by omega)]

theorem Memory.write_of_gt {m : Memory} {a : Nat} (h : 255 < a) (v : Byte) :
    m.write a v = .error (.addressingErrorMem a) := by
  rw [Memory.write, if_pos h]

/-- What the read port answers after a store (R42); an address above 255 is refused before and after. -/
theorem Memory.read_store {m : Memory} (h : m.wf) {a : Nat} (ha : a ≤ 255) (v : Byte) (b : Nat) :
    (m.store a v).read b = if b = a then .ok v else m.read b := by
  by_cases hb : b ≤ 255
  · rw [Memory.read_of_le hb, Memory.read_of_le hb, Memory.lookup_store h, apply_ite Except.ok]
  · have hb' : 255 < b := by omega
    rw [Memory.read_of_gt hb', Memory.read_of_gt hb', if_neg (by omega)]

/-! ### A fetch error, and the end of a run -/

theorem step_of_fetch_error {s : State} {c : FaultCause} (hs : s.status = .running) (hf : s.fetch = .error c) :
    step s = .next (s.raise c) := by
  rw [step, engineStep, hs]
  simp only [runningStep, hf]

theorem step_of_terminal {s : State} (hs : s.Terminal) : step s = .next s := by
  rw [step, engineStep]
  cases hst : s.status with
  | running => exact absurd hst hs
  | halted => rfl
  | faulted => rfl

/-- R80: a terminal state never changes again (log entry 3). -/
theorem runFor_of_terminal {s : State} (hs : s.Terminal) (n : Nat) : runFor n s = .next s := by
  induction n with
  | zero => rfl
  | succ n ih => rw [runFor_succ (step_of_terminal hs), ih]

theorem State.raise_terminal (s : State) (c : FaultCause) : (s.raise c).Terminal := by
  simp [State.Terminal]

/-- Settles O5: the ports by their laws inside and above the 256 addresses; a fetch error raises, and the state it
leaves is terminal. -/
theorem memoryPortsCheckTheirAddress : Obligations.MemoryPortsCheckTheirAddress := by
  refine ⟨fun m a v hm => ⟨fun ha => ?_, fun ha => ?_⟩, fun s c hs hf => ?_⟩
  · exact ⟨Memory.read_of_gt ha, Memory.write_of_gt ha v⟩
  · exact ⟨m.store a v, Memory.write_of_le ha v, Memory.read_store hm ha v⟩
  · exact ⟨s.raise c, step_of_fetch_error hs hf, rfl, rfl, runFor_of_terminal (s.raise_terminal c)⟩

/-! ### The canonical form holds the cells and nothing else -/

/-- A canonical memory lists exactly the cells whose byte is not the one an unlisted address reads as. -/
theorem Memory.mem_iff_lookup {m : Memory} (h : m.wf) (c : Host.Cell) :
    c ∈ m ↔ m.lookup c.1 = c.2 ∧ c.2 ≠ Memory.unlisted := by
  induction m with
  | nil =>
    simp only [List.not_mem_nil, Memory.lookup, false_iff, not_and, not_not]
    exact Eq.symm
  | cons d m ih =>
    have hd : ∀ e ∈ m, d.1 < e.1 := (List.pairwise_cons.mp h.1).1
    rw [List.mem_cons, ih (Memory.wf_tail h), Memory.lookup]
    by_cases hc : d.1 = c.1
    · have hm : Memory.lookup m c.1 = Memory.unlisted := Memory.lookup_of_forall_lt (hc ▸ hd)
      have hv : d.2 ≠ Memory.unlisted := (h.2 d List.mem_cons_self).2
      rw [if_pos hc, hm]
      constructor
      · rintro (rfl | ⟨hu, hne⟩)
        · exact ⟨rfl, hv⟩
        · exact absurd hu.symm hne
      · exact fun ⟨hb, _⟩ => .inl (Prod.ext hc.symm hb.symm)
    · have hcd : c ≠ d := fun e => hc (congrArg Prod.fst e).symm
      simp [hc, hcd]

theorem Memory.lookup_of_ge {m : Memory} (h : m.wf) {a : Nat} (ha : 256 ≤ a) : m.lookup a = Memory.unlisted := by
  by_contra hne
  have hlt : a < 256 := (h.2 _ ((Memory.mem_iff_lookup h (a, m.lookup a)).mpr ⟨rfl, hne⟩)).1
  omega

theorem Memory.lookup_eq_of_read_eq {m m' : Memory} {a : Nat} (ha : a ≤ 255) (h : m.read a = m'.read a) :
    m.lookup a = m'.lookup a := by
  simpa [Memory.read_of_le ha] using h

/-- Two lists with rising addresses and the same entries are the same list. -/
theorem Memory.eq_of_lookup_eq {m m' : Memory} (h : m.wf) (h' : m'.wf) (hl : ∀ a, m.lookup a = m'.lookup a) :
    m = m' := by
  have : Std.Irrefl fun c d : Host.Cell => c.1 < d.1 := ⟨fun c => lt_irrefl c.1⟩
  have : Std.Antisymm fun c d : Host.Cell => c.1 < d.1 := ⟨fun _ _ hcd hdc => absurd hdc hcd.asymm⟩
  refine h.1.eq_of_mem_iff h'.1 fun c => ?_
  rw [Memory.mem_iff_lookup h, Memory.mem_iff_lookup h', hl]

/-- Settles O6: the two memories read the same at the 256 addresses by the premise and above them by the canonical
form, so they list the same entries in the same order. -/
theorem memoryIsItsCells : Obligations.MemoryIsItsCells := by
  intro m m' h h' hr
  refine Memory.eq_of_lookup_eq h h' fun a => ?_
  by_cases ha : a < 256
  · exact Memory.lookup_eq_of_read_eq (by omega) (hr a ha)
  · rw [Memory.lookup_of_ge h (by omega), Memory.lookup_of_ge h' (by omega)]

/-! ### Constancy during a run -/

/-- No step writes memory (R41): a fault changes the status and the record, and no handler stores. -/
theorem step_mem_eq {s t : State} (h : step s = .next t) : t.mem = s.mem := by
  obtain rfl | ⟨_, c, _, rfl⟩ | ⟨_, i, hc⟩ := step_cases h
  · rfl
  · exact s.raise_mem c
  · exact hc.mem_eq

theorem runFor_mem_eq {s t : State} {n : Nat} (h : runFor n s = .next t) : t.mem = s.mem :=
  runFor_induction (P := fun u => u.mem = s.mem) (fun _ _ hu hst => (step_mem_eq hst).trans hu) n rfl h

/-- Settles O7: the memory itself is what every step keeps. -/
theorem memoryIsConstantDuringARun : Obligations.MemoryIsConstantDuringARun := by
  intro n s t h a
  rw [runFor_mem_eq h]

end Sys2Proof.Machine
end

section
/-! PROOFS. The encoding: an instruction's bytes against a window's first `width` bytes, under any opcode table (R60 to
R63, R68): O10, O11, O12, and the default table: O8, O9. -/

namespace Sys2Proof

/-! ### The encoding's length (R60, R68) -/

theorem encodingWidth (i : Instr) : Laws.EncodingWidth.Statement i := by
  cases i with
  | hlt => exact Laws.EncodingWidth.hlt
  | ldi a v => exact Laws.EncodingWidth.ldi a v
  | prn a => exact Laws.EncodingWidth.prn a
  | mul a b => exact Laws.EncodingWidth.mul a b
  | cmp a b => exact Laws.EncodingWidth.cmp a b
  | jmp a => exact Laws.EncodingWidth.jmp a
  | jeq a => exact Laws.EncodingWidth.jeq a
  | jne a => exact Laws.EncodingWidth.jne a

theorem encode_length (t : OpcodeTable) (i : Instr) : (encode t i).length = i.width := (encodingWidth i t).2.1

theorem Instr.width_pos (i : Instr) : 1 ≤ i.width := (encodingWidth i opcodeOf).2.2.1

theorem Instr.width_le (i : Instr) : i.width ≤ 3 := (encodingWidth i opcodeOf).2.2.2

theorem Window.bytes_length (w : Window) : w.bytes.length = 3 := rfl

/-! ### An instruction's bytes against a window's -/

/-- An operand that fits its byte is the number that byte stands for (R60, R64, R65). -/
theorem operandByte_eq_iff {v : Nat} (hv : operandFits v = true) (b : Byte) : BitVec.ofNat 8 v = b ↔ zext8 b = v := by
  have hlt : v < 2 ^ 8 := by simpa [operandFits] using hv
  rw [← BitVec.toNat_inj, BitVec.toNat_ofNat, Nat.mod_eq_of_lt hlt, eq_comm]

/-- A window starts with an instruction's encoding exactly when its first byte is the row's opcode and the row's
operands, read from it, are the instruction's (R61, R62). -/
theorem encode_eq_take_iff (t : OpcodeTable) (w : Window) {i : Instr} (hi : i.wellFormed = true) :
    encode t i = w.bytes.take i.width ↔ t i.mnemonic = w.op ∧ operandsOf i.mnemonic w.a w.b = i := by
  cases i with
  | hlt => simp [encode, Instr.operandBytes, Instr.mnemonic, Instr.width, Mnemonic.width, Window.bytes, operandsOf]
  | prn a | jmp a | jeq a | jne a =>
    simp [encode, Instr.operandBytes, Instr.mnemonic, Instr.width, Mnemonic.width, Window.bytes, operandsOf,
      operandByte_eq_iff (show operandFits a = true from hi)]
  | ldi a v | mul a v | cmp a v =>
    obtain ⟨ha, hv⟩ : operandFits a = true ∧ operandFits v = true := by simpa [Instr.wellFormed] using hi
    simp [encode, Instr.operandBytes, Instr.mnemonic, Instr.width, Mnemonic.width, Window.bytes, operandsOf,
      operandByte_eq_iff ha, operandByte_eq_iff hv]

/-- An encoding whose bytes are those of a window, index by index, is what the window starts with (R61). -/
theorem encode_eq_take_of_getD {t : OpcodeTable} {w : Window} {i : Instr}
    (h : ∀ k, k < i.width → w.bytes.getD k 0#8 = (encode t i).getD k 0#8) : encode t i = w.bytes.take i.width := by
  have hle := i.width_le
  refine List.ext_getElem (by simp [encode_length, Window.bytes_length, hle]) fun k hk hk' => ?_
  have hkw : k < i.width := encode_length t i ▸ hk
  have hkb : k < w.bytes.length := by rw [Window.bytes_length]; omega
  have hb := h k hkw
  rw [List.getD_eq_getElem _ _ hk, List.getD_eq_getElem _ _ hkb] at hb
  rw [List.getElem_take, hb]

/-! ### The decoder by its lookup (R82) -/

/-- The decoder answers an instruction exactly when the lookup finds its row and the row's operands are its own. -/
theorem decodeWindow_eq_ok_iff {t : OpcodeTable} {w : Window} {i : Instr} :
    decodeWindow t w = .ok i ↔ lookupOpcode t w.op = some i.mnemonic ∧ operandsOf i.mnemonic w.a w.b = i := by
  rw [decodeWindow]
  cases lookupOpcode t w.op with
  | none => simp
  | some m =>
    simp only [Except.ok.injEq, Option.some.injEq]
    constructor
    · rintro rfl
      simp [operandsOf_mnemonic]
    · rintro ⟨rfl, h⟩
      exact h

theorem decodeWindow_of_unknown {t : OpcodeTable} {w : Window} (h : ∀ m, t m ≠ w.op) :
    decodeWindow t w = .error (.unknownOpcode w.op) := by
  rw [decodeWindow, lookupOpcode_none.mpr h]

theorem wellFormed_of_decodeWindow {t : OpcodeTable} {w : Window} {i : Instr} (h : decodeWindow t w = .ok i) :
    i.wellFormed = true := by
  obtain ⟨m, _, rfl⟩ := decodeWindow_ok h
  exact operandsOf_wellFormed m w.a w.b

theorem encode_of_decodeWindow {t : OpcodeTable} {w : Window} {i : Instr} (h : decodeWindow t w = .ok i) :
    encode t i = w.bytes.take i.width := by
  obtain ⟨hop, hargs⟩ := decodeWindow_eq_ok_iff.mp h
  exact (encode_eq_take_iff t w (wellFormed_of_decodeWindow h)).mpr ⟨lookupOpcode_some hop, hargs⟩

/-- Under a legal table a window that starts with a well-formed instruction's encoding decodes to it (R62, R63). -/
theorem decodeWindow_of_encode {t : OpcodeTable} (ht : t.Legal) {w : Window} {i : Instr} (hi : i.wellFormed = true)
    (h : encode t i = w.bytes.take i.width) : decodeWindow t w = .ok i := by
  obtain ⟨hop, hargs⟩ := (encode_eq_take_iff t w hi).mp h
  exact decodeWindow_eq_ok_iff.mpr ⟨hop ▸ lookupOpcode_of_legal ht i.mnemonic, hargs⟩

/-- At least three bytes are decoded by their first three, the window (R62). -/
theorem exists_window_decodeBytes_eq (t : OpcodeTable) {l : List Byte} (h : 3 ≤ l.length) :
    ∃ w : Window, w.bytes = l.take 3 ∧ decodeBytes t l = decodeWindow t w := by
  match l, h with
  | op :: a :: b :: _, _ => exact ⟨⟨op, a, b⟩, rfl, rfl⟩

/-- Settles O10: the encoding with the two bytes after it fills a window, and that window starts with the encoding. -/
theorem decodeOfEncodeIsTheInstruction : Obligations.DecodeOfEncodeIsTheInstruction := by
  intro t ht i hi p q
  have hlen : 3 ≤ (encode t i ++ [p, q]).length := by
    have hpos := i.width_pos
    simp only [List.length_append, encode_length, List.length_cons, List.length_nil]
    omega
  obtain ⟨w, hw, hdec⟩ := exists_window_decodeBytes_eq t hlen
  rw [hdec]
  refine decodeWindow_of_encode ht hi ?_
  rw [hw, List.take_take, min_eq_left i.width_le, List.take_left' (encode_length t i)]

/-- Settles O11: the decoder's row and operands are read back from the window's own bytes. -/
theorem encodeOfDecodeIsTheWindow : Obligations.EncodeOfDecodeIsTheWindow :=
  fun _ _ _ h => ⟨wellFormed_of_decodeWindow h, encode_of_decodeWindow h⟩

/-- Settles O12: the second window starts with the encoding too, so it has the same opcode byte, for which the lookup
answers the same row under any table, and the same operands. -/
theorem bytesBeyondTheWidthAreIgnored : Obligations.BytesBeyondTheWidthAreIgnored := by
  intro t w w' i h htake
  have henc : encode t i = w'.bytes.take i.width := (encode_of_decodeWindow h).trans htake.symm
  obtain ⟨hop', hargs'⟩ := (encode_eq_take_iff t w' (wellFormed_of_decodeWindow h)).mp henc
  obtain ⟨hlookup, _⟩ := decodeWindow_eq_ok_iff.mp h
  have hop : w'.op = w.op := hop'.symm.trans (lookupOpcode_some hlookup)
  exact decodeWindow_eq_ok_iff.mpr ⟨hop ▸ hlookup, hargs'⟩

/-! ### The default table (R63) -/

/-- The lookup answers nothing exactly for the bytes outside the table's column (R66). -/
theorem lookupOpcode_none_iff_notMem {t : OpcodeTable} {op : Byte} :
    lookupOpcode t op = none ↔ op ∉ Mnemonic.all.map t := by
  simp [lookupOpcode_none, Mnemonic.mem_all]

theorem lookupOpcode_opcodeOf (m : Mnemonic) : lookupOpcode opcodeOf (opcodeOf m) = some m := by
  cases m <;> rfl

/-- The eight values are distinct because the lookup gives each row back. -/
theorem opcodeOf_legal : opcodeOf.Legal := by
  refine ⟨rfl, fun m n h => ?_⟩
  rw [← Option.some_inj, ← lookupOpcode_opcodeOf m, h, lookupOpcode_opcodeOf n]

/-- Settles O8: the bytes written out are the default table's column. -/
theorem defaultOpcodeTable : Obligations.DefaultOpcodeTable :=
  ⟨opcodeOf_legal, fun _ => lookupOpcode_none_iff_notMem, by decide, by decide, by decide⟩

/-- Settles O9, by running the decoder on the eight words. -/
theorem specWordsDecode : Obligations.SpecWordsDecode := by
  unfold Obligations.SpecWordsDecode
  decide

end Sys2Proof
end

section
/-! PROOFS. The engine's step under any opcode table (R63, R81, R82): O14, O16. -/

namespace Sys2Proof.Machine

/-- Where the whole window is in memory the fetch answers it, byte by byte what the read port answers (R81). -/
theorem State.exists_fetch_of_le {s : State} (h : s.pc ≤ 253) :
    ∃ w : Window, s.fetch = .ok w ∧ ∀ k, k < 3 → s.mem.read (s.pc + k) = .ok (w.bytes.getD k 0#8) := by
  refine ⟨_, by rw [State.fetch_eq, if_pos h], fun k hk => ?_⟩
  rw [Memory.read_of_le (by omega)]
  match k, hk with
  | 0, _ => rfl
  | 1, _ => rfl
  | 2, _ => rfl

theorem engineStep_of_fetch (t : OpcodeTable) {s : State} {w : Window} (hs : s.status = .running)
    (hf : s.fetch = .ok w) : engineStep t s = dispatchWindow t s w := by
  rw [engineStep, hs]
  simp only [runningStep, hf]

theorem dispatchWindow_of_ok {t : OpcodeTable} {w : Window} {i : Instr} (h : decodeWindow t w = .ok i) (s : State) :
    dispatchWindow t s w = exec i s := by
  rw [dispatchWindow, h]

theorem dispatchWindow_of_unknown {t : OpcodeTable} {w : Window} (h : ∀ m, t m ≠ w.op) (s : State) :
    dispatchWindow t s w = .next (s.raise (.decodeError w.op)) := by
  rw [dispatchWindow, decodeWindow_of_unknown h]

/-- Settles O14: the fetched window starts with the encoding, so it decodes to the instruction, which is dispatched. -/
theorem encodedInstructionRunsUnderEveryTable : Obligations.EncodedInstructionRunsUnderEveryTable := by
  intro t ht s i hi hs hpc hmem
  obtain ⟨w, hf, hread⟩ := State.exists_fetch_of_le hpc
  have henc : encode t i = w.bytes.take i.width := encode_eq_take_of_getD fun k hk =>
    Except.ok.inj ((hread k (hk.trans_le i.width_le)).symm.trans (hmem k hk))
  rw [engineStep_of_fetch t hs hf, dispatchWindow_of_ok (decodeWindow_of_encode ht hi henc)]

/-- Settles O16: the fetched window's first byte is that byte, so dispatch raises, and the FAULTED state is
terminal. -/
theorem unknownOpcodeEndsInDecodeError : Obligations.UnknownOpcodeEndsInDecodeError := by
  intro t s op hs hpc hop hnone
  obtain ⟨w, hf, hread⟩ := State.exists_fetch_of_le hpc
  obtain rfl : w.op = op := Except.ok.inj ((hread 0 (by decide)).symm.trans hop)
  refine ⟨?_, rfl⟩
  rw [engineStep_of_fetch t hs hf, dispatchWindow_of_unknown hnone, State.raise]

end Sys2Proof.Machine
end

section
/-! PROOFS. The engine's fetch (R81), its run state (R80, R85, R101), and that no run stops short of a next state
(R152, R163): O13, O15, O17, O18, O19. -/

namespace Sys2Proof.Machine

/-! ### The fetch decides the step -/

/-- Three answered reads are a fetched window (R81). -/
theorem State.fetch_of_read {s : State} {op a b : Byte} (h0 : s.mem.read s.pc = .ok op)
    (h1 : s.mem.read (s.pc + 1) = .ok a) (h2 : s.mem.read (s.pc + 2) = .ok b) : s.fetch = .ok ⟨op, a, b⟩ := by
  rw [State.fetch, h0, h1, h2]; rfl

/-- A window that reaches above 255 is refused at its first such address (R81, R153). -/
theorem State.fetch_of_gt {s : State} (h : 253 < s.pc) : s.fetch = .error (.addressingErrorMem (max s.pc 256)) := by
  rw [State.fetch_eq, if_neg (by omega)]

theorem engineStep_of_fetch_error (t : OpcodeTable) {s : State} {c : FaultCause} (hs : s.status = .running)
    (hf : s.fetch = .error c) : engineStep t s = .next (s.raise c) := by
  rw [engineStep, hs]
  simp only [runningStep, hf]

/-- Settles O13: the three bytes read are the window the engine fetches, decodes and dispatches. -/
theorem stepRunsTheDecodedInstruction : Obligations.StepRunsTheDecodedInstruction := by
  intro s op a b i hs h0 h1 h2 hdec
  rw [step, engineStep_of_fetch opcodeOf hs (State.fetch_of_read h0 h1 h2), dispatchWindow_of_ok hdec]

/-- Settles O15: the fetch error raises, and its address `max pc 256` is 256 at pc 254 and 255 and the pc above. -/
theorem windowAboveMemoryFaultsAtFetch : Obligations.WindowAboveMemoryFaultsAtFetch := by
  intro t s hs
  refine ⟨fun hpc => ?_, fun hpc => ?_⟩
  · have hmax : max s.pc 256 = 256 := by omega
    rw [engineStep_of_fetch_error t hs (State.fetch_of_gt (by omega)), hmax, State.raise]
  · have hmax : max s.pc 256 = s.pc := by omega
    rw [engineStep_of_fetch_error t hs (State.fetch_of_gt (by omega)), hmax, State.raise]

/-! ### The run state -/

/-- Settles O17: the step of a terminal state answers the state itself, and so does every run. -/
theorem terminalStatesNeverChange : Obligations.TerminalStatesNeverChange :=
  fun _ hs n => runFor_of_terminal hs n

/-- Every run has a next state, because every step has one. -/
theorem runFor_next (n : Nat) (s : State) : ∃ t, runFor n s = .next t := by
  induction n generalizing s with
  | zero => exact ⟨s, rfl⟩
  | succ n ih =>
    obtain ⟨u, hu⟩ := step_next s
    rw [runFor_succ hu]
    exact ih u

/-- Settles O19, by induction over the run. -/
theorem everyRunHasANextState : Obligations.EveryRunHasANextState := runFor_next

/-- Only HALT's handler takes a RUNNING state to the success state (R85, R100). -/
theorem eq_hlt_of_exec_succeeded {i : Instr} {s t : State} (hs : s.status = .running) (h : exec i s = .next t)
    (ht : t.Succeeded) : i = .hlt := by
  rw [State.Succeeded] at ht
  obtain hc | ⟨r, _, rfl⟩ := exec_cases h
  · by_contra hi
    rw [hc.status_eq, if_neg hi, hs] at ht
    cases ht
  · cases ht

/-- Settles O18: a terminal state is not RUNNING and a fault is FAULTED, so the step ran a handler, which is HALT's; its
row is the one found for the byte at the pc. -/
theorem onlyHaltHalts : Obligations.OnlyHaltHalts := by
  intro s t hs h ht
  rw [step] at h
  obtain ⟨hne, _⟩ | ⟨_, _, he⟩ | ⟨_, _, _, he⟩ | ⟨_, hpc, m, hop, _, he⟩ := engineStep_cases opcodeOf s
  · exact absurd hs hne
  · rw [he] at h; cases h; cases ht
  · rw [he] at h; cases h; cases ht
  · rw [he] at h
    have hi := eq_hlt_of_exec_succeeded hs h ht
    have hm : m = .hlt := by rw [← operandsOf_mnemonic m, hi]; rfl
    rw [hi] at h
    refine ⟨hpc, ?_, ?_⟩
    · rw [Memory.read_of_le (by omega), ← hop, hm]
    · cases h; rfl

end Sys2Proof.Machine
end

section
/-! PROOFS. When a handler faults (R83, R86, R154), and the ALU's three operations (R88 to R92): O34, O30, O31. -/

namespace Sys2Proof.Machine

theorem registerOperand_lt_of_namesRegisters {i : Instr} {r : Nat} (hi : i.namesRegisters = true)
    (hr : r ∈ i.registerOperands) : r < 8 := by
  simpa using List.all_eq_true.mp hi r hr

/-- Settles O34: with a bad register the handler raises for the first one; with none it completes, which keeps the
record and all but HALT's status; and what it accesses is among its register operands. -/
theorem handlersFaultExactlyOnBadRegisters : Obligations.HandlersFaultExactlyOnBadRegisters := by
  refine fun i s => ⟨fun r hr => ?_, fun hn => ?_, fun hi => ?_⟩
  · rw [exec_of_firstBadRegister hr, State.raise]
  · obtain ⟨t, ht⟩ := exists_completes (firstBadRegister_none.mp hn)
    exact ⟨t, ht.exec_eq, ht.fault_eq, ht.status_eq⟩
  · exact firstBadRegister_none.mpr fun r hr =>
      registerOperand_lt_of_namesRegisters hi (mem_registerOperands_of_accessed hr)

/-! ### The ALU -/

theorem alu_multiply (a b : Nat) : alu .multiply a b = .ok (.reg (a * b)) := rfl

/-- Bit 0 of a comparison's flag value is equality, whatever state it is written to (R91). -/
theorem compareFlags_getLsbD_zero (a b : Nat) : (compareFlags a b).getLsbD 0 = decide (a = b) :=
  equalFlag_setFlags_compareFlags State.reset a b

/-- Settles O30: the product is that of the natural numbers, and so commutes. -/
theorem aluMultiplyIsExact : Obligations.AluMultiplyIsExact := by
  refine fun a b => ⟨alu_multiply a b, alu_multiply a 0, ?_⟩
  rw [alu_multiply, alu_multiply, Nat.mul_comm]

/-- Settles O31, one selector at a time. -/
theorem aluIsAClosedSet : Obligations.AluIsAClosedSet := by
  refine fun a b n => ⟨rfl, ⟨compareFlags a b, rfl, ?_⟩, rfl⟩
  rw [compareFlags_getLsbD_zero, decide_eq_true_eq]

end Sys2Proof.Machine
end

section
/-! PROOFS. HALT, PRINT_REGISTER, and the output stream over every run (R31, R100 to R104): O22, O24, O37. -/

namespace Sys2Proof.Machine

/-! ### The two handlers -/

/-- The first register a handler checks is the one its fault records when it is outside the file (R158, D7). -/
theorem firstBadRegister_of_head {i : Instr} {s : State} {a : Nat} {l : List Nat} (hi : accessed i s = a :: l)
    (h : 7 < a) : firstBadRegister i s = some a := by
  rw [firstBadRegister, hi, List.find?_cons_of_pos (by simpa using h)]

/-- Settles O22: HALT accesses no register, so its handler completes in every state. -/
theorem hltHalts : Obligations.HltHalts := fun _ => Completes.hlt.exec_eq

/-- Settles O24: inside the file the handler completes with its two writes, outside it raises for its one register. -/
theorem prnEmitsRegister : Obligations.PrnEmitsRegister :=
  fun a _ => ⟨fun ha => (Completes.prn a ha).exec_eq,
    fun ha => exec_of_firstBadRegister (firstBadRegister_of_head rfl ha)⟩

/-! ### What one step prints -/

/-- The value the handler of an instruction appends to the output stream, if any (R102). `exec_out` ties it to `exec`,
`printed_of_decode` to `printed`. -/
def emitted (i : Instr) (s : State) : Option Nat :=
  match i with
  | .prn a => s.x[a]?
  | _ => none

theorem emitted_of_ne_prn {i : Instr} (hi : ∀ a, i ≠ .prn a) (s : State) : emitted i s = none := by
  cases i with
  | prn a => exact absurd rfl (hi a)
  | _ => rfl

theorem emitted_of_firstBadRegister {i : Instr} {s : State} {r : Nat} (h : firstBadRegister i s = some r) :
    emitted i s = none := by
  cases i with
  | prn a =>
    obtain rfl := firstBadRegister_one rfl h
    exact Vector.getElem?_eq_none (firstBadRegister_ge h)
  | _ => rfl

theorem Completes.out_eq_append {i : Instr} {s t : State} (h : Completes s i t) :
    t.out = s.out ++ (emitted i s).toList := by
  cases h with
  | prn a ha => simp [emitted, ha]
  | _ => exact (List.append_nil _).symm

theorem exec_out {i : Instr} {s t : State} (h : exec i s = .next t) : t.out = s.out ++ (emitted i s).toList := by
  obtain hc | ⟨r, hr, rfl⟩ := exec_cases h
  · exact hc.out_eq_append
  · simp [emitted_of_firstBadRegister hr]

theorem State.trace_of_fetch {s : State} {w : Window} (hs : s.status = .running) (hf : s.fetch = .ok w) :
    s.trace = some ⟨s.pc, w, s.x⟩ := by
  simp only [State.trace, hs, hf]

/-- A step that fetches no window, in a terminal state or by a fetch fault, prints nothing. -/
theorem printed_of_not_fetched {s : State} (h : s.status = .running → ∀ w, s.fetch ≠ .ok w) : printed s = none := by
  have htrace : s.trace = none := by
    rw [State.trace]
    split
    · next hs hf => exact absurd hf (h hs _)
    · rfl
  simp only [printed, htrace]

theorem printed_of_fetch {s : State} {w : Window} (hs : s.status = .running) (hf : s.fetch = .ok w) :
    printed s = if w.op = opcodeOf .prn then emitted (.prn w.a.toNat) s else none := by
  simp only [printed, State.trace_of_fetch hs hf]
  rfl

/-- A step that decodes prints what the decoded instruction's handler emits: no other row has PRN's opcode (R63). -/
theorem printed_of_decode {s : State} {w : Window} {i : Instr} (hs : s.status = .running) (hf : s.fetch = .ok w)
    (hd : decodeWindow opcodeOf w = .ok i) : printed s = emitted i s := by
  obtain ⟨m, hop, rfl⟩ := decodeWindow_ok hd
  rw [printed_of_fetch hs hf, ← hop]
  by_cases hm : m = .prn
  · rw [hm, if_pos rfl]; rfl
  · rw [if_neg fun h => hm (opcodeOf_legal.2 _ _ h), emitted_of_ne_prn]
    intro a ha
    exact hm (by rw [← operandsOf_mnemonic m, ha]; rfl)

theorem printed_of_unknown {s : State} {w : Window} (hs : s.status = .running) (hf : s.fetch = .ok w)
    (h : ∀ m, opcodeOf m ≠ w.op) : printed s = none := by
  rw [printed_of_fetch hs hf, if_neg (h .prn).symm]

/-- One step appends to the output stream what it prints (R103, R104). -/
theorem step_out {s t : State} (h : step s = .next t) : t.out = s.out ++ (printed s).toList := by
  by_cases hs : s.status = .running
  · cases hf : s.fetch with
    | error c =>
      rw [step_of_fetch_error hs hf] at h
      cases h
      have hp : printed s = none := printed_of_not_fetched fun _ w => by simp [hf]
      simp [hp]
    | ok w =>
      rw [step, engineStep_of_fetch opcodeOf hs hf] at h
      by_cases hop : ∀ m, opcodeOf m ≠ w.op
      · rw [dispatchWindow_of_unknown hop] at h
        cases h
        simp [printed_of_unknown hs hf hop]
      · obtain ⟨m, hm⟩ := not_forall_not.mp hop
        have hd : decodeWindow opcodeOf w = .ok (operandsOf m w.a w.b) := by
          rw [decodeWindow, ← hm, lookupOpcode_opcodeOf]
        rw [dispatchWindow_of_ok hd] at h
        rw [printed_of_decode hs hf hd]
        exact exec_out h
  · rw [step_of_terminal hs] at h
    cases h
    simp [printed_of_not_fetched fun h => absurd h hs]

/-! ### What a run prints -/

theorem printedBy_succ {s t : State} (h : step s = .next t) (n : Nat) :
    printedBy (n + 1) s = (printed s).toList ++ printedBy n t := by
  rw [printedBy, h]

/-- A run appends to the output stream what its steps print, in their order (R103). -/
theorem runFor_out (n : Nat) {s t : State} (h : runFor n s = .next t) : t.out = s.out ++ printedBy n s := by
  induction n generalizing s with
  | zero => cases h; exact (List.append_nil _).symm
  | succ n ih =>
    obtain ⟨u, hu⟩ := step_next s
    rw [runFor_succ hu] at h
    calc t.out = u.out ++ printedBy n u := ih h
      _ = s.out ++ ((printed s).toList ++ printedBy n u) := by rw [step_out hu, List.append_assoc]
      _ = s.out ++ printedBy (n + 1) s := by rw [printedBy_succ hu]

/-- Settles O37: the run's law, and the two handlers' completions one after the other. -/
theorem outputIsWhatPrintRegisterPrintedInOrder : Obligations.OutputIsWhatPrintRegisterPrintedInOrder := by
  refine ⟨fun n s t h => runFor_out n h, fun s r v hr => ?_⟩
  exact ⟨_, _, (Completes.ldi r v hr).exec_eq, (Completes.prn r hr).exec_eq, by simp⟩

end Sys2Proof.Machine
end

section
/-! PROOFS. LOAD_IMMEDIATE, MULTIPLY and COMPARE (R110 to R112): O23, O25, O26. Inside the file each handler completes;
outside it the handler raises for the first register it checks. -/

namespace Sys2Proof.Machine

/-- The second register a handler checks is the one its fault records when the first is in the file (R158, D7). -/
theorem firstBadRegister_of_second {i : Instr} {s : State} {a b : Nat} {l : List Nat} (hi : accessed i s = a :: b :: l)
    (ha : a < 8) (hb : 7 < b) : firstBadRegister i s = some b := by
  have ha' : ¬ 7 < a := by omega
  rw [firstBadRegister, hi, List.find?_cons_of_neg (by simpa using ha'), List.find?_cons_of_pos (by simpa using hb)]

/-- Settles O23: LDI checks its destination and no other register. -/
theorem ldiLoadsImmediate : Obligations.LdiLoadsImmediate :=
  fun a v _ => ⟨fun ha => (Completes.ldi a v ha).exec_eq,
    fun ha => exec_of_firstBadRegister (firstBadRegister_of_head rfl ha)⟩

/-- Settles O25: the completion writes the product of the old values; the two faults follow the order of the checks. -/
theorem mulWritesExactProduct : Obligations.MulWritesExactProduct :=
  fun a b _ => ⟨fun ha hb => (Completes.mul a b ha hb).exec_eq,
    fun ha => exec_of_firstBadRegister (firstBadRegister_of_head rfl ha),
    fun ha hb => exec_of_firstBadRegister (firstBadRegister_of_second rfl ha hb)⟩

/-- Settles O26: the flag value written is that of `compareFlags`, whose bit 0 is equality. -/
theorem cmpSetsEqualFlag : Obligations.CmpSetsEqualFlag := by
  refine fun a b s => ⟨fun ha hb => ⟨compareFlags s.x[a] s.x[b], (Completes.cmp a b ha hb).exec_eq, ?_⟩,
    fun ha => exec_of_firstBadRegister (firstBadRegister_of_head rfl ha),
    fun ha hb => exec_of_firstBadRegister (firstBadRegister_of_second rfl ha hb)⟩
  rw [compareFlags_getLsbD_zero, decide_eq_true_eq]

end Sys2Proof.Machine
end

section
/-! PROOFS. JUMP, JUMP_IF_EQUAL and JUMP_IF_NOT_EQUAL (R131 to R134): O27, O28, O29, O36. A jump that is taken checks its
register and no more; the target is checked by the next fetch. -/

namespace Sys2Proof.Machine

/-- Settles O36: the jump completes on every target, and the state it leaves is RUNNING at the target, where the fetch
reads the window or refuses its first address above 255. -/
theorem jumpTargetIsCheckedAtTheNextFetch : Obligations.JumpTargetIsCheckedAtTheNextFetch := by
  intro s a ha hs
  refine ⟨s.jump s.x[a], (Completes.jmp a ha).exec_eq, fun hle => ?_, fun hgt => ?_⟩
  · obtain ⟨w, hf, hread⟩ := State.exists_fetch_of_le (s := s.jump s.x[a]) hle
    exact ⟨w, hf, hread 0 (by decide)⟩
  · exact step_of_fetch_error hs (State.fetch_of_gt hgt)

/-- Settles O27: JMP checks its one register and completes for every value it holds. -/
theorem jmpCopiesRegisterToPc : Obligations.JmpCopiesRegisterToPc :=
  fun a _ => ⟨fun ha => (Completes.jmp a ha).exec_eq,
    fun ha => exec_of_firstBadRegister (firstBadRegister_of_head rfl ha)⟩

/-- Settles O28: JEQ accesses its register exactly when E is set. -/
theorem jeqJumpsWhenEqual : Obligations.JeqJumpsWhenEqual :=
  fun a _ => ⟨fun he => (Completes.jeqNext a he).exec_eq,
    fun he ha => (Completes.jeqTaken a he ha).exec_eq,
    fun he ha => exec_of_firstBadRegister (firstBadRegister_of_head (accessed_jeq_of_equal he a) ha)⟩

/-- Settles O29: JNE accesses its register exactly when E is clear. -/
theorem jneJumpsWhenNotEqual : Obligations.JneJumpsWhenNotEqual :=
  fun a _ => ⟨fun he => (Completes.jneNext a he).exec_eq,
    fun he ha => (Completes.jneTaken a he ha).exec_eq,
    fun he ha => exec_of_firstBadRegister (firstBadRegister_of_head (accessed_jne_of_not_equal he a) ha)⟩

end Sys2Proof.Machine
end

section
/-! PROOFS. The run that never ends (R169, D27) and the trace port (R171, D22): O20, O21. -/

namespace Sys2Proof.Machine

/-! ### A jump to itself -/

/-- A state that steps to itself is the state after any number of steps. -/
theorem runFor_of_step_self {s : State} (h : step s = .next s) (n : Nat) : runFor n s = .next s := by
  induction n with
  | zero => rfl
  | succ n ih => rw [runFor_succ h, ih]

/-- A JUMP to the value the pc already has writes nothing (R131). -/
theorem State.jump_self (s : State) : s.jump s.pc = s := rfl

/-- A RUNNING engine with JMP's two bytes at the pc, the window inside memory, goes to the register's value (R131). -/
theorem step_jmp {s : State} {a : Nat} (ha : a < 8) (hs : s.status = .running) (hpc : s.pc ≤ 253)
    (hop : s.mem.read s.pc = .ok (opcodeOf .jmp)) (harg : s.mem.read (s.pc + 1) = .ok (BitVec.ofNat 8 a)) :
    step s = .next (s.jump s.x[a]) := by
  have hwf : (Instr.jmp a).wellFormed = true := decide_eq_true (show a < 256 by omega)
  have hbytes : ∀ k, k < (Instr.jmp a).width →
      s.mem.read (s.pc + k) = .ok ((encode opcodeOf (.jmp a)).getD k 0#8)
    | 0, _ => hop
    | 1, _ => harg
  calc step s = exec (.jmp a) s := encodedInstructionRunsUnderEveryTable opcodeOf opcodeOf_legal s _ hwf hs hpc hbytes
    _ = .next (s.jump s.x[a]) := (Completes.jmp a ha).exec_eq

/-- Settles O20: the jump's target is its own address, so the step answers the state it started from. -/
theorem jumpToItselfNeverEnds : Obligations.JumpToItselfNeverEnds := by
  intro s a ha hs hpc hop harg htarget n
  have hstep : step s = .next s := by rw [step_jmp ha hs hpc hop harg, htarget, State.jump_self]
  exact runFor_of_step_self hstep n

/-! ### The trace port -/

theorem State.trace_of_fetch_error {s : State} {c : FaultCause} (hf : s.fetch = .error c) : s.trace = none := by
  rw [State.trace, hf]
  cases s.status <;> rfl

/-- Settles O21, by what the fetch answers. -/
theorem traceShowsTheFetchedWindow : Obligations.TraceShowsTheFetchedWindow :=
  fun _ hs => ⟨fun _ hf => State.trace_of_fetch hs hf, fun _ hf => State.trace_of_fetch_error hf⟩

end Sys2Proof.Machine
end

section
/-! PROOFS. The hazard of R187: a COMPARE and the conditional jump right after it (O35). -/

namespace Sys2Proof.Machine

/-- The state after a completing COMPARE has E set exactly when the two registers are equal (R91, R112). -/
theorem Completes.cmp_getLsbD_zero {s t : State} {a b : Nat} (ha : a < 8) (hb : b < 8)
    (h : Completes s (.cmp a b) t) : t.fl.getLsbD 0 = decide (s.x[a] = s.x[b]) := by
  cases h with
  | cmp => exact compareFlags_getLsbD_zero s.x[a] s.x[b]

/-- Settles O35: the jump that is taken reads its target in the state COMPARE leaves, whose registers are those before
it; the other advances past both instructions. -/
theorem compareDecidesTheNextJump : Obligations.CompareDecidesTheNextJump := by
  intro s a b c ha hb hc
  have hcmp := Completes.cmp (s := s) a b ha hb
  have hE := hcmp.cmp_getLsbD_zero ha hb
  by_cases hx : s.x[a] = s.x[b]
  · have he := hE.trans (decide_eq_true hx)
    exact ⟨_, _, _, hcmp.exec_eq, (Completes.jeqTaken c he hc).exec_eq, (Completes.jneNext c he).exec_eq,
      fun _ => ⟨rfl, rfl⟩, fun hne => absurd hx hne⟩
  · have he := hE.trans (decide_eq_false hx)
    exact ⟨_, _, _, hcmp.exec_eq, (Completes.jeqNext c he).exec_eq, (Completes.jneTaken c he hc).exec_eq,
      fun heq => absurd heq hx, fun _ => ⟨rfl, rfl⟩⟩

end Sys2Proof.Machine
end

section
/-! PROOFS. The loader's acceptance rule for one line (R70, R182, D19): O4. -/

namespace Sys2Proof.Machine

/-! ### Deleting the comment -/

theorem stripComment_append {w : List Char} (hw : '#' ∉ w) (l : List Char) :
    stripComment (w ++ l) = w ++ stripComment l :=
  List.takeWhile_append_of_pos fun _ hc => bne_iff_ne.mpr fun h => hw (h ▸ hc)

theorem stripComment_of_notMem {l : List Char} (h : '#' ∉ l) : stripComment l = l := by
  simpa [stripComment] using stripComment_append h []

theorem stripComment_append_hash {l : List Char} (h : '#' ∉ l) (comment : List Char) :
    stripComment (l ++ '#' :: comment) = l := by
  rw [stripComment_append h]
  exact List.append_nil l

/-! ### Trimming the blanks -/

theorem trimBlanks_eq_rdropWhile (l : List Char) :
    trimBlanks l = (l.dropWhile Char.isWhitespace).rdropWhile Char.isWhitespace := rfl

theorem trimBlanks_append_left {w : List Char} (hw : ∀ c ∈ w, c.isWhitespace = true) (l : List Char) :
    trimBlanks (w ++ l) = trimBlanks l := by
  rw [trimBlanks, List.dropWhile_append_of_pos hw, trimBlanks]

theorem trimBlanks_append_right {w : List Char} (hw : ∀ c ∈ w, c.isWhitespace = true) (l : List Char) :
    trimBlanks (l ++ w) = trimBlanks l := by
  have hrev : ∀ c ∈ w.reverse, c.isWhitespace = true := fun c hc => hw c (List.mem_reverse.mp hc)
  rw [trimBlanks, trimBlanks, List.dropWhile_append]
  split
  · next hl => rw [List.dropWhile_eq_nil_iff.mpr hw, List.isEmpty_iff.mp hl]
  · rw [List.reverse_append, List.dropWhile_append_of_pos hrev]

theorem trimBlanks_eq_self {l : List Char} (hhead : ∀ c, l.head? = some c → c.isWhitespace = false)
    (hlast : ∀ c, l.getLast? = some c → c.isWhitespace = false) : trimBlanks l = l := by
  have hdrop : l.dropWhile Char.isWhitespace = l := by
    cases l with
    | nil => rfl
    | cons c l => exact List.dropWhile_cons_of_neg (by simpa using hhead c rfl)
  rw [trimBlanks_eq_rdropWhile, hdrop, List.rdropWhile_eq_self_iff]
  intro hne
  simpa using hlast _ (List.getLast?_eq_some_getLast hne)

/-! ### The rule -/

theorem lineKind_congr {l l' : List Char} (h : trimBlanks (stripComment l) = trimBlanks (stripComment l')) :
    lineKind l = lineKind l' := by
  simp only [lineKind, h]

/-- What is left of a line after comment and blanks, if anything, is a byte in binary or malformed (R182.4). -/
theorem lineKind_eq_ite {l ds : List Char} (h : trimBlanks (stripComment l) = ds) (hne : ds ≠ []) :
    lineKind l = if (∀ c ∈ ds, c = '0' ∨ c = '1') ∧ binaryValue ds ≤ 255
      then .byte (BitVec.ofNat 8 (binaryValue ds)) else .malformed := by
  cases ds with
  | nil => exact absurd rfl hne
  | cons d ds => simp [lineKind, h]

theorem lineKind_append_hash {l : List Char} (h : '#' ∉ l) (comment : List Char) :
    lineKind (l ++ '#' :: comment) = lineKind l :=
  lineKind_congr (by rw [stripComment_append_hash h, stripComment_of_notMem h])

theorem hash_notMem_of_blank {w : List Char} (hw : ∀ c ∈ w, c.isWhitespace = true) : '#' ∉ w :=
  fun h => absurd (hw '#' h) (by decide)

theorem lineKind_append_left {w : List Char} (hw : ∀ c ∈ w, c.isWhitespace = true) (l : List Char) :
    lineKind (w ++ l) = lineKind l :=
  lineKind_congr (by rw [stripComment_append (hash_notMem_of_blank hw), trimBlanks_append_left hw])

/-- Blanks at the end of a line belong to its comment, if it has one, and are trimmed otherwise. -/
theorem lineKind_append_right {w : List Char} (hw : ∀ c ∈ w, c.isWhitespace = true) (l : List Char) :
    lineKind (l ++ w) = lineKind l := by
  by_cases hl : '#' ∈ l
  · obtain ⟨l₁, l₂, rfl, h₁⟩ := List.eq_append_cons_of_mem hl
    rw [List.append_assoc, List.cons_append, lineKind_append_hash h₁, lineKind_append_hash h₁]
  · refine lineKind_congr ?_
    rw [stripComment_append hl, stripComment_of_notMem (hash_notMem_of_blank hw), stripComment_of_notMem hl,
      trimBlanks_append_right hw]

/-- Settles O4: comment and blanks by the laws of the two passes; a line neither pass changes is its own digits. -/
theorem loaderLineAcceptance : Obligations.LoaderLineAcceptance := by
  refine ⟨fun l comment h => lineKind_append_hash h comment, fun l w w' hw => ?_, rfl,
    fun ds hne hhash hhead hlast => ?_⟩
  · obtain ⟨hleft, hright⟩ := List.forall_mem_append.mp hw
    rw [lineKind_append_right hright, lineKind_append_left hleft]
  · have htrim : trimBlanks (stripComment ds) = ds := by
      rw [stripComment_of_notMem hhash, trimBlanks_eq_self hhead hlast]
    rw [lineKind_eq_ite htrim hne]
    exact ⟨fun h => if_pos h, fun h => if_neg h⟩

end Sys2Proof.Machine
end

section
/-! PROOFS. The load loop and the state a run starts in (R157, R180 to R182): O2, O3. -/

namespace Sys2Proof.Machine

/-- The image of lines already classified. `imageBytes_eq` and `imageOf_map_byte` tie it to the two constructions. -/
def imageOf (ks : List LineKind) : List Byte := ks.filterMap LineKind.toByte

@[simp] theorem imageOf_nil : imageOf [] = [] := rfl
@[simp] theorem imageOf_cons_skip (ks : List LineKind) : imageOf (.skip :: ks) = imageOf ks := rfl
@[simp] theorem imageOf_cons_byte (v : Byte) (ks : List LineKind) : imageOf (.byte v :: ks) = v :: imageOf ks := rfl

theorem imageBytes_eq (ls : List (List Char)) : imageBytes ls = imageOf (ls.map lineKind) := by
  rw [imageOf, List.filterMap_map]; rfl

theorem imageOf_map_byte (p : List Byte) : imageOf (p.map .byte) = p := by
  rw [imageOf, List.filterMap_map]
  exact List.filterMap_some

theorem construct_some (ls : List (List Char)) :
    construct (some ls) = started (loadLines 1 0 [] (ls.map lineKind)) := rfl

theorem loadImage_eq (p : List Byte) : loadImage p = started (loadLines 1 0 [] (p.map .byte)) := rfl

theorem malformed_notMem_map_lineKind {ls : List (List Char)} (h : ∀ l ∈ ls, lineKind l ≠ .malformed) :
    .malformed ∉ ls.map lineKind := by
  simpa using h

theorem malformed_notMem_map_byte (p : List Byte) : .malformed ∉ p.map LineKind.byte := by simp

/-! ### The load loop -/

theorem loadLines_byte_of_le {a : Nat} (ha : a ≤ 255) (n : Nat) (m : Memory) (v : Byte) (ks : List LineKind) :
    loadLines n a m (.byte v :: ks) = loadLines (n + 1) (a + 1) (m.store a v) ks := by
  simp only [loadLines, Memory.write_of_le ha]

theorem loadLines_byte_of_gt {a : Nat} (ha : 255 < a) (n : Nat) (m : Memory) (v : Byte) (ks : List LineKind) :
    loadLines n a m (.byte v :: ks) = .error (.line n) := by
  simp only [loadLines, Memory.write_of_gt ha]

/-- Storing `v` at `a` and then the bytes of `p` from the next address on is storing the bytes of `v :: p` from `a`
on, cell by cell. -/
theorem Memory.getD_lookup_store {m : Memory} (hm : m.wf) (a : Nat) (v : Byte) (p : List Byte) (k : Nat) :
    (if k < a + 1 then (m.store a v).lookup k else p.getD (k - (a + 1)) ((m.store a v).lookup k)) =
      if k < a then m.lookup k else (v :: p).getD (k - a) (m.lookup k) := by
  rw [Memory.lookup_store hm]
  obtain hlt | rfl | hgt := lt_trichotomy k a
  · rw [if_pos (by omega), if_neg (by omega), if_pos hlt]
  · simp
  · obtain ⟨j, rfl⟩ : ∃ j, k = a + 1 + j := ⟨k - (a + 1), by omega⟩
    rw [if_neg (by omega), if_neg (by omega), if_neg (by omega), Nat.add_sub_cancel_left,
      show a + 1 + j - a = j + 1 by omega, List.getD_cons_succ]

/-- The loop with room for every byte: the image lies at `a` and up, every other cell is as before (R181). -/
theorem loadLines_ok {ks : List LineKind} (hks : .malformed ∉ ks) (n a : Nat) {m : Memory} (hm : m.wf)
    (hlen : a + (imageOf ks).length ≤ 256) :
    ∃ m', loadLines n a m ks = .ok m' ∧
      ∀ k, m'.lookup k = if k < a then m.lookup k else (imageOf ks).getD (k - a) (m.lookup k) := by
  induction ks generalizing n a m with
  | nil => exact ⟨m, rfl, fun k => by simp⟩
  | cons kind ks ih =>
    have hks' : .malformed ∉ ks := fun h => hks (List.mem_cons_of_mem _ h)
    cases kind with
    | skip => exact ih hks' (n + 1) a hm hlen
    | malformed => exact absurd List.mem_cons_self hks
    | byte v =>
      rw [imageOf_cons_byte, List.length_cons] at hlen
      obtain ⟨m', hload, hlookup⟩ := ih hks' (n + 1) (a + 1) (Memory.wf_store hm (a := a) (by omega) v) (by omega)
      refine ⟨m', (loadLines_byte_of_le (by omega) n m v ks).trans hload, fun k => ?_⟩
      rw [hlookup, Memory.getD_lookup_store hm, imageOf_cons_byte]

/-- The loop over a malformed line, or over more bytes than there is room for, ends with the number of one of its lines
(R182). -/
theorem loadLines_error {ks : List LineKind} {a : Nat} (n : Nat) (m : Memory) (ha : a ≤ 256)
    (h : .malformed ∈ ks ∨ 256 < a + (imageOf ks).length) :
    ∃ i, n ≤ i ∧ i < n + ks.length ∧ loadLines n a m ks = .error (.line i) := by
  induction ks generalizing n a m with
  | nil =>
    obtain h | h := h
    · cases h
    · exact absurd h (Nat.not_lt.mpr ha)
  | cons kind ks ih =>
    rw [List.length_cons]
    cases kind with
    | skip =>
      obtain ⟨i, hle, hlt, hload⟩ := ih (n + 1) m ha (by simpa using h)
      exact ⟨i, by omega, by omega, hload⟩
    | malformed => exact ⟨n, le_rfl, by omega, rfl⟩
    | byte v =>
      by_cases ha' : a ≤ 255
      · have h' : .malformed ∈ ks ∨ 256 < a + 1 + (imageOf ks).length := by
          simpa [Nat.add_assoc, Nat.add_comm 1] using h
        obtain ⟨i, hle, hlt, hload⟩ := ih (n + 1) (m.store a v) (by omega) h'
        exact ⟨i, by omega, by omega, (loadLines_byte_of_le ha' n m v ks).trans hload⟩
      · exact ⟨n, le_rfl, by omega, loadLines_byte_of_gt (by omega) n m v ks⟩

/-! ### A load that succeeds -/

/-- The state a run starts in after a load without error: the reset state with the image in memory (R180, R181). -/
theorem started_of_image {ks : List LineKind} (hks : .malformed ∉ ks) (hlen : (imageOf ks).length ≤ 256) :
    ∃ m, started (loadLines 1 0 [] ks) = { State.reset with mem := m } ∧
      ∀ k, k < 256 → m.read k = .ok ((imageOf ks).getD k 0#8) := by
  obtain ⟨m, hload, hlookup⟩ := loadLines_ok hks 1 0 Memory.wf_nil (by omega)
  refine ⟨m, by rw [hload, started], fun k hk => ?_⟩
  rw [Memory.read_of_le (by omega), hlookup, if_neg (Nat.not_lt_zero k)]
  rfl

/-- Settles O2: the load loop's law from address 0 over an empty memory, for a file's lines and for an image's bytes. -/
theorem loadedFileGivesInitialState : Obligations.LoadedFileGivesInitialState := by
  refine ⟨fun ls hls hlen => ?_, fun p hlen => ?_⟩
  · rw [imageBytes_eq] at hlen ⊢
    obtain ⟨m, hs, hread⟩ := started_of_image (malformed_notMem_map_lineKind hls) hlen
    rw [construct_some, hs]
    exact ⟨hread, State.reset_x, rfl, rfl, rfl, rfl, rfl⟩
  · obtain ⟨m, hs, hread⟩ := started_of_image (malformed_notMem_map_byte p) (by rwa [imageOf_map_byte])
    rw [loadImage_eq, hs]
    rwa [imageOf_map_byte] at hread

/-! ### A load that fails -/

/-- A run that never starts: FAULTED with a ProgramFileError at pc 0 that names one of `lines` lines, whatever the
number of steps (R80, R157, R182). -/
def FailsAtALine (lines : Nat) (s : State) : Prop :=
  s.status = .faulted ∧ (∃ n, 1 ≤ n ∧ n ≤ lines ∧ s.fault = some ⟨.programFileError (.line n), 0⟩) ∧
    ∀ n, runFor n s = .next s

theorem runFor_started_error (e : LoadError) (n : Nat) :
    runFor n (started (.error e)) = .next (started (.error e)) :=
  runFor_of_terminal (State.reset.raise_terminal _) n

theorem failsAtALine_of_loadLines {ks : List LineKind} (h : .malformed ∈ ks ∨ 256 < (imageOf ks).length) :
    FailsAtALine ks.length (started (loadLines 1 0 [] ks)) := by
  obtain ⟨i, hle, hlt, hload⟩ := loadLines_error 1 [] (a := 0) (by omega) (by simpa using h)
  rw [hload]
  exact ⟨rfl, ⟨i, hle, by omega, rfl⟩, runFor_started_error _⟩

theorem failsAtALine_construct {ls : List (List Char)}
    (h : (∃ l ∈ ls, lineKind l = .malformed) ∨ 256 < (imageBytes ls).length) :
    FailsAtALine ls.length (construct (some ls)) := by
  rw [imageBytes_eq, ← List.mem_map] at h
  simpa [construct_some] using failsAtALine_of_loadLines h

theorem failsAtALine_loadImage {p : List Byte} (h : 256 < p.length) : FailsAtALine p.length (loadImage p) := by
  have hlen : 256 < (imageOf (p.map .byte)).length := by rwa [imageOf_map_byte]
  simpa [loadImage_eq] using failsAtALine_of_loadLines (.inr hlen)

/-- Settles O3: every failing load ends in a raised ProgramFileError, and a faulted state is terminal. -/
theorem loadFailureFaultsBeforeAnyStep : Obligations.LoadFailureFaultsBeforeAnyStep :=
  ⟨runFor_started_error .missingFile, rfl, rfl, fun _ h => failsAtALine_construct (.inl h),
    fun _ _ h => failsAtALine_construct (.inr h), fun _ h => failsAtALine_loadImage h⟩

end Sys2Proof.Machine
end
